-- ==== Sys2Proof/Config.lean ====
section
/-! DEFINITION. The parameters of the block (spec 00_scope.md rules R7, R8): the reference width, what every
implementation fixes, and the two results the spec leaves open, as constants without a body. -/

namespace Sys2Proof.Config

/-- The reference value of `W`, the width of every register (R7, R8): the reference instantiation MEE-W32. `W` itself
is an argument of every type and operation of the model, of which this number is only the default
(notes/assumptions/1.md). -/
abbrev W : Nat := 32

/-- `EFIX`, the public exponent of the fixed strategy (R7, R124). -/
abbrev EFIX : Nat := 17

/-- `P0`, the first default prime (R7, R40). -/
abbrev P0 : Nat := 61

/-- `Q0`, the second default prime (R7, R40). -/
abbrev Q0 : Nat := 53

/-- `NoInvResult(c, p, q, n, phi, e)` (R7, R144): the word DECRYPT returns when the key has no private exponent.
An uninterpreted total function of the operand and the key, at each width: a free value, fixed by its arguments alone
(notes/assumptions/6.md). -/
opaque noInvResult {width : Nat} (c p q n phi e : BitVec width) : BitVec width

/-- What ENCRYPT or DECRYPT leaves in `RES_LO` if `KEY_N` were 0. R135 defines `mod_exp` for `n >= 1` only, and no
run reaches `KEY_N = 0` (R36); the value is free (notes/assumptions/7.md). -/
opaque zeroModulusPower {width : Nat} (base exp : BitVec width) : BitVec width

/-- The reference width meets the bound R8 puts on the width. -/
theorem thirteen_le_W : 13 ≤ W := by decide

end Sys2Proof.Config
end

