-- ==== Sys2Proof/Word.lean ====
section
/-! DEFINITION. The W-bit word (spec 00_scope.md rules R9, R10): unsigned, bit 0 the least significant. -/

namespace Sys2Proof

/-- A register's content, an unsigned integer in `[0, 2^W)` (R9). The width is an argument (R7); `Word` alone is the
word of the reference instantiation (R8), and so for every type of the model that has a width. -/
abbrev Word (W : Nat := Config.W) := BitVec W

namespace Word

variable {W : Nat}

/-- `SENT = 2^W - 1`, the pattern that stands for DOC0's `d = -1` (R7). -/
def sent : Word W := BitVec.allOnes W

/-- The low word of a number, `v mod 2^W` (R9, R57). -/
def low (v : Nat) : Word W := BitVec.ofNat W v

/-- The high word of a number below `2^(2W)`, `v div 2^W` (R9, R57). -/
def high (v : Nat) : Word W := BitVec.ofNat W (v / 2 ^ W)

end Word

end Sys2Proof
end

