-- ==== Sys2Proof/Syntax.lean ====
section
/-! DEFINITION. What the host can spell: the ten commands (spec 30_encoding.md rule R72), the window's slots
(20_memory.md R51), the actions of the host (00_scope.md R12, R16) and the host notation (30_encoding.md R76, R77). -/

namespace Sys2Proof

/-- The ten commands, one per row of spec/opcode_table.json (R72). A command word carries no operand (R74), so no
constructor has an argument: each takes its operands from the fixed registers of R23. -/
inductive Instr where
  | derive | encrypt | decrypt | modexp | modinv | mul | gcd | coprime | isprime | findexp
  deriving DecidableEq, Repr

/-- The sixteen slots of the window, by the names of R51; the last two are reserved (R56). -/
inductive Slot where
  | cmd | status | opa | opb | opc | resLo | resHi | cfg
  | keyP | keyQ | keyN | keyPhi | keyE | keyD | reserved14 | reserved15
  deriving DecidableEq, Repr

/-- DOC0's exponent strategy, the meaning of the strap and of `CFG.STRATEGY` (R7, R31). -/
inductive Strategy where
  | fixedExponent17
  | searchSmallestCoprime
  deriving DecidableEq, Repr

/-- One action of the host, the only agent that starts a step (R12, R16). The index is the port's four-bit `idx`
(R67), so an index outside the window cannot be written down (R58). -/
inductive HostAction (W : Nat := Config.W) where
  /-- `HostRead(idx)` -/
  | read (idx : BitVec 4)
  /-- `HostWrite(idx, v)` -/
  | write (idx : BitVec 4) (v : Word W)
  /-- the reset event with the strap at `strategy` (R175) -/
  | reset (strategy : Strategy)
  deriving DecidableEq, Repr

/-- What an access puts on the port: the triple of R76 (signals `we`, `idx`, `wdata` of R67). -/
structure PortAccess (W : Nat := Config.W) where
  we : Bool
  idx : BitVec 4
  wdata : Word W
  deriving DecidableEq, Repr

/-- A statement of the host notation (R76), with its literals as written. -/
inductive Statement where
  /-- `RESET s` -/
  | reset (strap : Nat)
  /-- `WR name, value` -/
  | wr (name : Slot) (value : Nat)
  /-- `RD name` -/
  | rd (name : Slot)
  deriving DecidableEq, Repr

/-- A pseudo-instruction of the host notation (R77): a mnemonic with the operands its row lists, or a mnemonic
alone. -/
inductive Pseudo where
  | derive (p q : Nat)
  | encrypt (m : Nat)
  | decrypt (c : Nat)
  | modexp (b x n : Nat)
  | modinv (a m : Nat)
  | mul (a b : Nat)
  | gcd (a b : Nat)
  | coprime (a b : Nat)
  | isprime (x : Nat)
  | findexp (phi : Nat)
  | bare (i : Instr)
  deriving DecidableEq, Repr

end Sys2Proof
end

