-- ==== Sys2Proof/WellFormed.lean ====
section
/-! DEFINITION. Well-formedness of what the host writes. A command has no field (spec 30_encoding.md rule R74), so
there is nothing an `Instr` could have wrong; the host notation of R76 and R77 has names and literals to check. -/

namespace Sys2Proof

/-- Every command is well formed: it has no operand, immediate or register field (R74). -/
def Instr.wf : Instr → Bool
  | .derive | .encrypt | .decrypt | .modexp | .modinv | .mul | .gcd | .coprime | .isprime | .findexp => true

/-- A literal of the host notation is in `[0, 2^W)` (R76). -/
def literalFits (v : Nat) (W : Nat := Config.W) : Bool := decide (v < 2 ^ W)

/-- The slots that carry a register's name (R51): all but the reserved two (notes/assumptions/15.md). -/
def Slot.named : Slot → Bool
  | .reserved14 | .reserved15 => false
  | .cmd | .status | .opa | .opb | .opc | .resLo | .resHi | .cfg
  | .keyP | .keyQ | .keyN | .keyPhi | .keyE | .keyD => true

/-- A statement is well formed when its strap is 0 or 1, its name a register's and its value a W-bit literal (R76). -/
def Statement.wf (st : Statement) (W : Nat := Config.W) : Bool :=
  match st with
  | .reset s => decide (s ≤ 1)
  | .wr name value => name.named && literalFits value W
  | .rd name => name.named

/-- The operands of a pseudo-instruction, in the order R77 writes them. -/
def Pseudo.operands : Pseudo → List Nat
  | .derive p q => [p, q]
  | .encrypt m => [m]
  | .decrypt c => [c]
  | .modexp b x n => [b, x, n]
  | .modinv a m => [a, m]
  | .mul a b => [a, b]
  | .gcd a b => [a, b]
  | .coprime a b => [a, b]
  | .isprime x => [x]
  | .findexp phi => [phi]
  | .bare _ => []

/-- A pseudo-instruction is well formed when each operand is a W-bit literal (R76, R77). -/
def Pseudo.wf (p : Pseudo) (W : Nat := Config.W) : Bool := p.operands.all (literalFits · W)

end Sys2Proof
end

