-- ==== Sys2Proof/Decode.lean ====
section
/-! DEFINITION. The command decoder (spec 30_encoding.md rules R70 to R73), total on words and rejecting by name,
its encoder, the slot numbering (20_memory.md R51), and the encodings of the host notation (R76, R77). -/

namespace Sys2Proof

variable {W : Nat}

/-! ## Command words -/

/-- Why a word is illegal (R73). -/
inductive IllegalWord where
  /-- the field `ZERO`, bits `[W-1:4]`, is not all zero -/
  | upperBitsSet
  /-- `OP` is 0x0 or 0xB to 0xF -/
  | unassignedOpcode
  deriving DecidableEq, Repr

/-- What a word spells: a command, or ILLEGAL (R71). -/
inductive Decoded where
  | command (i : Instr)
  | illegal (why : IllegalWord)
  deriving DecidableEq, Repr

/-- The field `OP`, bits `[3:0]` (R70). -/
def opField (v : Word W) : BitVec 4 := v.setWidth 4

/-- The field `ZERO`, bits `[W-1:4]`, as a number (R70). -/
def zeroField (v : Word W) : Nat := (v >>> 4).toNat

/-- The sixteen opcodes (R72). -/
def opcodeTable (op : BitVec 4) : Decoded :=
  match op.toNat with
  | 0x1 => .command .derive
  | 0x2 => .command .encrypt
  | 0x3 => .command .decrypt
  | 0x4 => .command .modexp
  | 0x5 => .command .modinv
  | 0x6 => .command .mul
  | 0x7 => .command .gcd
  | 0x8 => .command .coprime
  | 0x9 => .command .isprime
  | 0xA => .command .findexp
  | _ => .illegal .unassignedOpcode

/-- `decode(v) = if v[W-1:4] != 0 then ILLEGAL else table(v[3:0])` (R71). It reads no state. -/
def decode (v : Word W) : Decoded :=
  if zeroField v ≠ 0 then .illegal .upperBitsSet else opcodeTable (opField v)

/-- The opcode of a command (R72). -/
def opcode : Instr → BitVec 4
  | .derive => 0x1
  | .encrypt => 0x2
  | .decrypt => 0x3
  | .modexp => 0x4
  | .modinv => 0x5
  | .mul => 0x6
  | .gcd => 0x7
  | .coprime => 0x8
  | .isprime => 0x9
  | .findexp => 0xA

/-- The word of a command is `zext_W(OP)` (R72). -/
def encode (i : Instr) : Word W := (opcode i).setWidth W

/-- The word that the low `nbits` bits of `w` make; the bits above are zero, and a word has no bit above `W`
(notes/assumptions/19.md). -/
def tableWord (nbits w : Nat) : Word W := Word.low (w % 2 ^ nbits)

/-- The instruction the decoder reads from a row's word, as spec/opcode_table.json numbers its bits (R78). The table
is the reference instantiation's, 32 bits a row. -/
def decodeTableWord (nbits w : Nat) : Option Instr :=
  match decode (tableWord nbits w : Word) with
  | .command i => some i
  | .illegal _ => none

/-! ## Window indices -/

/-- The index of a slot (R51). -/
def Slot.index : Slot → BitVec 4
  | .cmd => 0
  | .status => 1
  | .opa => 2
  | .opb => 3
  | .opc => 4
  | .resLo => 5
  | .resHi => 6
  | .cfg => 7
  | .keyP => 8
  | .keyQ => 9
  | .keyN => 10
  | .keyPhi => 11
  | .keyE => 12
  | .keyD => 13
  | .reserved14 => 14
  | .reserved15 => 15

/-- The slot at an index (R51); the four bits name all sixteen. -/
def Slot.ofIndex (idx : BitVec 4) : Slot :=
  match idx.toNat with
  | 0 => .cmd
  | 1 => .status
  | 2 => .opa
  | 3 => .opb
  | 4 => .opc
  | 5 => .resLo
  | 6 => .resHi
  | 7 => .cfg
  | 8 => .keyP
  | 9 => .keyQ
  | 10 => .keyN
  | 11 => .keyPhi
  | 12 => .keyE
  | 13 => .keyD
  | 14 => .reserved14
  | _ => .reserved15

/-! ## The strap -/

/-- `STRATEGY` as the bit `CFG` shows and the strap carries: 0 = `FixedExponent17`, 1 = `SearchSmallestCoprime`
(R7, R31). -/
def Strategy.bit : Strategy → BitVec 1
  | .fixedExponent17 => 0
  | .searchSmallestCoprime => 1

/-- The strategy a strap bit selects (R7). -/
def Strategy.ofBit (b : BitVec 1) : Strategy :=
  if b = 0 then .fixedExponent17 else .searchSmallestCoprime

/-! ## Host notation -/

/-- The access a host action puts on the port (R67, R76); a reset is no access. On a read `wdata` carries nothing,
and the encoder drives zero (notes/assumptions/14.md). -/
def HostAction.toPort : HostAction W → Option (PortAccess W)
  | .read i => some { we := false, idx := i, wdata := 0 }
  | .write i v => some { we := true, idx := i, wdata := v }
  | .reset _ => none

/-- The host action an access on the port is (R67): `wdata` is looked at on a write only. -/
def PortAccess.toAction (a : PortAccess W) : HostAction W :=
  if a.we then .write a.idx a.wdata else .read a.idx

/-- The meaning of a statement as a host action (R76). -/
def Statement.toAction (W : Nat := Config.W) : Statement → HostAction W
  | .reset s => .reset (Strategy.ofBit (BitVec.ofNat 1 s))
  | .wr name value => .write name.index (Word.low value)
  | .rd name => .read name.index

/-- The statement a host action is written as (R76). -/
def HostAction.toStatement : HostAction W → Statement
  | .reset st => .reset st.bit.toNat
  | .write i v => .wr (Slot.ofIndex i) v.toNat
  | .read i => .rd (Slot.ofIndex i)

/-- The command a pseudo-instruction ends with (R77). -/
def Pseudo.command : Pseudo → Instr
  | .derive _ _ => .derive
  | .encrypt _ => .encrypt
  | .decrypt _ => .decrypt
  | .modexp _ _ _ => .modexp
  | .modinv _ _ => .modinv
  | .mul _ _ => .mul
  | .gcd _ _ => .gcd
  | .coprime _ _ => .coprime
  | .isprime _ => .isprime
  | .findexp _ => .findexp
  | .bare i => i

/-- The operand writes of a pseudo-instruction: `OPA`, `OPB`, `OPC` in turn (R77). -/
def operandWrites : List Nat → List Statement
  | [] => []
  | [a] => [.wr .opa a]
  | [a, b] => [.wr .opa a, .wr .opb b]
  | a :: b :: c :: _ => [.wr .opa a, .wr .opb b, .wr .opc c]

/-- The statements a pseudo-instruction stands for: its operand writes, then the write of its word, as a number its
opcode (R72), to `CMD` (R77). -/
def Pseudo.expand (p : Pseudo) : List Statement :=
  operandWrites p.operands ++ [.wr .cmd (opcode p.command).toNat]

end Sys2Proof
end

