-- ==== Sys2Proof/Machine/State.lean ====
section
/-! DEFINITION. The state of the block (spec 10_state.md rules R20 to R40), its reset (70_reset_and_hazards.md R175),
and the reasons a step could stop. -/

namespace Sys2Proof.Machine

/-- The six values of `STATUS.CODE` (R150). -/
inductive Code where
  /-- 0: the command completed -/
  | ok
  /-- 1: the word written to `CMD` is no command (R151) -/
  | illegalCmd
  /-- 2: DERIVE, an operand is not prime (R152) -/
  | invalidKeyMaterial
  /-- 3: DERIVE under the scan strategy, or FINDEXP, with `phi <= 2` (R153) -/
  | degeneratePhi
  /-- 4: DERIVE, `p*q >= 2^W` (R154) -/
  | overflow
  /-- 5: MODEXP or MODINV, the modulus operand is 0 (R155) -/
  | zeroModulus
  deriving DecidableEq, Repr

/-- DOC0's KeyState, the registers `KEY_P` to `KEY_D` (R33), written all six together (R34). In `d` the sentinel
is the pattern `Word.sent`. -/
structure KeyState (W : Nat := Config.W) where
  p : Word W
  q : Word W
  n : Word W
  phi : Word W
  e : Word W
  d : Word W
  deriving DecidableEq, Repr

/-- What the port answered in the latest step (R67). The model's own record, no register of R20
(notes/assumptions/4.md). -/
inductive Reply (W : Nat := Config.W) where
  /-- `ack` low: no access took effect in the step -/
  | idle
  /-- `ack` high on a write -/
  | ack
  /-- `ack` high on a read, `rdata` the word read -/
  | data (w : Word W)
  deriving DecidableEq, Repr

/-- The registers of R20 (`CMD` and the reserved slots hold nothing, R32, R56), and the host's side of the port:
the actions it has issued and not yet had done, oldest first, and the port's latest answer
(notes/assumptions/3.md, 4.md). `State W` is the state at width `W`, for every width (R8); `State` alone is that of the
reference instantiation MEE-W32. -/
structure State (W : Nat := Config.W) where
  /-- `STATUS.CODE` (R28); `STATUS.NOINV` is a view of `KEY_D` -/
  code : Code
  opa : Word W
  opb : Word W
  opc : Word W
  resLo : Word W
  resHi : Word W
  /-- `CFG.STRATEGY` (R31), the only bit of `CFG` that is not always 0 -/
  strategy : Strategy
  key : KeyState W
  pending : List (HostAction W)
  reply : Reply W
  deriving DecidableEq, Repr

/-- Nothing in this hardware stops the machine with a fault: every failure is a `STATUS.CODE` and a next state (R156,
R157, R190), and an access outside the window cannot be expressed (R58). The type has no constructor, so no step can
answer a fault (notes/assumptions/13.md). -/
inductive Fault where
  deriving DecidableEq, Repr

/-- Why the model could give an instruction no meaning. -/
inductive Refusal where
  /-- Kept for an arm of `exec` without a meaning; safe, the model stops. No arm raises it: all ten commands are
  modelled. -/
  | notModelled (mnemonic : String)
  deriving DecidableEq, Repr

/-- The key of reset (R40, R175): the default primes, and the exponents of the strapped strategy. -/
def KeyState.reset (strategy : Strategy) (W : Nat := Config.W) : KeyState W :=
  match strategy with
  | .fixedExponent17 =>
    { p := Word.low Config.P0, q := Word.low Config.Q0, n := 3233, phi := 3120, e := Word.low Config.EFIX, d := 2753 }
  | .searchSmallestCoprime =>
    { p := Word.low Config.P0, q := Word.low Config.Q0, n := 3233, phi := 3120, e := 7, d := 1783 }

/-- The machine right after the reset event with the strap at `strategy` (R40, R175), with no host action waiting;
at every width of at least 13 bits the key values fit (R8). -/
def State.resetWith (strategy : Strategy) (W : Nat := Config.W) : State W :=
  { code := .ok, opa := 0, opb := 0, opc := 0, resLo := 0, resHi := 0,
    strategy := strategy, key := KeyState.reset strategy W, pending := [], reply := .idle }

/-- The machine right after reset, the strap at 0. A strap at 1 is `State.resetWith .searchSmallestCoprime`, also
reached from here by the host's `RESET 1` (DESIGN CHOICE, notes/assumptions/2.md). -/
def State.reset : State := State.resetWith .fixedExponent17

end Sys2Proof.Machine
end

