-- ==== Sys2Proof/Machine/Units.lean ====
section
/-! DEFINITION. The units of the block as pure functions on natural numbers (spec 00_scope.md rules R2, R15): the
literal algorithms, written for every width. No product wraps (R90). -/

namespace Sys2Proof.Machine

/-! ## The bounded scan -/

/-- Tries the last `k` numbers below `hi` in increasing order and returns the first that passes. -/
def scanLast (test : Nat → Bool) (hi : Nat) : Nat → Option Nat
  | 0 => none
  | k + 1 => if test (hi - (k + 1)) then some (hi - (k + 1)) else scanLast test hi k

/-- The first `x` in `[lo, hi)` that passes `test`, trying them in increasing order; `none` if none does. -/
def firstIn (lo hi : Nat) (test : Nat → Bool) : Option Nat := scanLast test hi (hi - lo)

/-! ## MULT -/

/-- `mul_full(a, b)`: the exact product (R90). -/
def mulFull (a b : Nat) : Nat := a * b

/-! ## PRIME -/

/-- Settles the lowest `k` bits of the square root of `a`, the bits above being `r`. -/
def isqrtBits (a : Nat) : Nat → Nat → Nat
  | 0, r => r
  | k + 1, r => isqrtBits a k (if (r + 2 ^ k) * (r + 2 ^ k) ≤ a then r + 2 ^ k else r)

/-- `isqrt(a)`: the largest `r` with `r*r <= a` (R9), bit by bit. -/
def isqrt (a : Nat) : Nat := isqrtBits a (Nat.log2 a + 1) 0

/-- `is_prime(num)`: trial division by `[2, isqrt(num)]` (R93). The order of the divisors cannot be observed (R96). -/
def isPrime (num : Nat) : Bool :=
  if num ≤ 1 then false else (firstIn 2 (isqrt num + 1) (fun i => num % i == 0)).isNone

/-! ## GCDC -/

/-- At most `fuel` replacements of `(a, b)` by `(b, a mod b)`, until `b = 0`; then `a` (R100). -/
def euclidLoop : Nat → Nat → Nat → Nat
  | 0, a, _ => a
  | fuel + 1, a, b => if b = 0 then a else euclidLoop fuel b (a % b)

/-- `gcd(a, b)` (R100). The second component strictly decreases, so `b` replacements are enough. -/
def euclid (a b : Nat) : Nat := euclidLoop b a b

/-- The comparator `gcd(a, b) = 1` (R103). -/
def coprime (a b : Nat) : Bool := euclid a b == 1

/-! ## ESCAN -/

/-- `find_exp(phi)`: the least `x` in `[2, phi)` with `gcd(x, phi) = 1` (R105); `none` where R105 leaves it undefined. -/
def findExp (phi : Nat) : Option Nat := firstIn 2 phi (fun x => coprime x phi)

/-! ## INVS -/

/-- `mod_inv(a, m)`: the first `x` in `[1, m)` with `((a mod m) * x) mod m = 1`; `none` stands for the sentinel (R110).
Every caller has `m >= 1` (R111). -/
def modInv (a m : Nat) : Option Nat := firstIn 1 m (fun x => mulFull (a % m) x % m == 1)

/-! ## MEXP -/

/-- The accumulator after the given number of multiply-and-reduce steps (R135). -/
def powerLoop (base n : Nat) : Nat → Nat
  | 0 => 1
  | k + 1 => mulFull (powerLoop base n k) base % n

/-- `mod_exp(base, exp, n)`: exactly `exp` steps from 1 (R135). Every caller has `n >= 1`. -/
def modExp (base exp n : Nat) : Nat := powerLoop base n exp

end Sys2Proof.Machine
end

