-- ==== Sys2Proof/Machine/Ops.lean ====
section
/-! DEFINITION. The shared operations on the state: the named updates, how a command ends, and the failure primitive,
this block's counterpart of taking an exception (spec 60_exceptions.md rule R156). There is no return from one
(R159): the next access is accepted as after a success. -/

namespace Sys2Proof.Machine

variable {W : Nat}

/-- The outcome of a command or an access. -/
abbrev Result (W : Nat := Config.W) := Host.Outcome (State W) Fault Refusal

/-! ## Named updates -/

def State.withCode (s : State W) (c : Code) : State W := { s with code := c }

def State.withOpa (s : State W) (v : Word W) : State W := { s with opa := v }

def State.withOpb (s : State W) (v : Word W) : State W := { s with opb := v }

def State.withOpc (s : State W) (v : Word W) : State W := { s with opc := v }

/-- Both result registers are written together (R22). -/
def State.withRes (s : State W) (lo hi : Word W) : State W := { s with resLo := lo, resHi := hi }

/-- All six key registers are written together (R34, R127). -/
def State.withKey (s : State W) (k : KeyState W) : State W := { s with key := k }

def State.withPending (s : State W) (l : List (HostAction W)) : State W := { s with pending := l }

def State.withReply (s : State W) (r : Reply W) : State W := { s with reply := r }

/-! ## How a command ends (R13) -/

/-- `fail(C)`: `STATUS.CODE <- C`, and every other register keeps its value (R13, R156). No register saves anything,
there is no mode, mask or handler, and control goes nowhere. -/
def fail (c : Code) (s : State W) : Result W := .next (s.withCode c)

/-- The end of a command that did not fail: `STATUS.CODE <- OK` beside the writes it lists (R13). -/
def complete (s : State W) : Result W := .next (s.withCode .ok)

/-- The end of a command with a one-word result: `RES_LO <- v`, `RES_HI <- 0`, `OK` (R22). -/
def completeWith (v : Word W) (s : State W) : Result W := complete (s.withRes v 0)

/-- The end of MUL: both words of the product (R22, R91). -/
def completeProduct (v : Nat) (s : State W) : Result W := complete (s.withRes (Word.low v) (Word.high v))

/-- The reset event (R175): every register at its reset value. It aborts a command without trace (R177;
notes/assumptions/5.md). The host's waiting actions are not the block's and stay (notes/assumptions/18.md). -/
def resetEvent (strategy : Strategy) (s : State W) : State W := (State.resetWith strategy W).withPending s.pending

end Sys2Proof.Machine
end

