-- ==== Sys2Proof/Machine/Operands.lean ====
section
/-! DEFINITION. The forms in which a command takes operands and gives results: whole unsigned words of the fixed
registers (spec 30_encoding.md rule R74), the truth value of a test, and the inverse search's word with its
sentinel. -/

namespace Sys2Proof.Machine

variable {W : Nat}

/-- `OPA` as an unsigned number (R9, R74). -/
abbrev opaNat (s : State W) : Nat := s.opa.toNat

/-- `OPB` as an unsigned number (R9, R74). -/
abbrev opbNat (s : State W) : Nat := s.opb.toNat

/-- `OPC` as an unsigned number (R9, R74). -/
abbrev opcNat (s : State W) : Nat := s.opc.toNat

/-- The word of a test: 1 or 0 (R95, R103). -/
def testWord (b : Bool) : Word W := if b then 1 else 0

/-- The word of an inverse search: the value found, or `SENT` (R110). -/
def inverseWord : Option Nat → Word W
  | some x => Word.low x
  | none => Word.sent

/-- The word of the exponentiation unit. R135 defines it for `n >= 1`; ENCRYPT and DECRYPT make no check, and a zero
`KEY_N`, which no run reaches (R36), gives the free value (notes/assumptions/7.md). -/
def powerWord (base exp n : Word W) : Word W :=
  if n = 0 then Config.zeroModulusPower base exp else Word.low (modExp base.toNat exp.toNat n.toNat)

end Sys2Proof.Machine
end

