-- ==== Sys2Proof/Machine/GcdExponent.lean ====
section
/-! DEFINITION. The gcd comparator and the public-exponent scanner as commands (spec 41_gcd_exponent_search.md). -/

namespace Sys2Proof.Machine

variable {W : Nat}

/-- GCD (R102): never fails, not even for zeros. -/
def execGcd (s : State W) : Result W := completeWith (Word.low (euclid (opaNat s) (opbNat s))) s

/-- COPRIME (R103): 1 if `gcd(OPA, OPB) = 1`, else 0. -/
def execCoprime (s : State W) : Result W := completeWith (testWord (coprime (opaNat s) (opbNat s))) s

/-- The scan with its rejection of `phi <= 2` (R107, R125). For `phi >= 3` the scan always finds a value (R106), so
the `none` arm is never taken (notes/assumptions/8.md). -/
def scanExponent (phi : Nat) : Except Code Nat :=
  if phi ≤ 2 then .error .degeneratePhi
  else
    match findExp phi with
    | some x => .ok x
    | none => .error .degeneratePhi

/-- FINDEXP (R107), under either strategy. -/
def execFindexp (s : State W) : Result W :=
  match scanExponent (opaNat s) with
  | .ok x => completeWith (Word.low x) s
  | .error c => fail c s

end Sys2Proof.Machine
end

