-- ==== Sys2Proof/Machine/DeriveKeys.lean ====
section
/-! DEFINITION. Key derivation (spec 43_derive_keys.md): the sequencer as a function of the width, the strategy and the
two primes, and the command. -/

namespace Sys2Proof.Machine

variable {W : Nat}

/-- What the sequencer computes from `p` and `q`: `d` is `none` when the search found no inverse (R126). -/
structure Derived where
  n : Nat
  phi : Nat
  e : Nat
  d : Option Nat
  deriving DecidableEq, Repr

/-- The public exponent: 17 as it is, with no check (R124), or the scan (R125). -/
def publicExponent (strategy : Strategy) (phi : Nat) : Except Code Nat :=
  match strategy with
  | .fixedExponent17 => .ok Config.EFIX
  | .searchSmallestCoprime => scanExponent phi

/-- `deriveKeys(p, q)` at width `w`, its checks in the order of R120's pseudocode (R129). -/
def deriveKeys (w : Nat) (strategy : Strategy) (p q : Nat) : Except Code Derived :=
  if !isPrime p || !isPrime q then .error .invalidKeyMaterial
  else if 2 ^ w ≤ mulFull p q then .error .overflow
  else
    match publicExponent strategy (mulFull (p - 1) (q - 1)) with
    | .error c => .error c
    | .ok e =>
      .ok { n := mulFull p q, phi := mulFull (p - 1) (q - 1), e := e,
            d := modInv e (mulFull (p - 1) (q - 1)) }

/-- The six words of a derived key (R127). -/
def keyWords (p q : Word W) (k : Derived) : KeyState W :=
  { p := p, q := q, n := Word.low k.n, phi := Word.low k.phi, e := Word.low k.e, d := inverseWord k.d }

/-- DERIVE (R120): on success all six key registers at once (R127), on failure only the code (R128); the result
registers are never written (R22). -/
def execDerive (s : State W) : Result W :=
  match deriveKeys W s.strategy (opaNat s) (opbNat s) with
  | .ok k => complete (s.withKey (keyWords s.opa s.opb k))
  | .error c => fail c s

end Sys2Proof.Machine
end

