-- ==== Sys2Proof/Machine/InverseSearch.lean ====
section
/-! DEFINITION. The inverse searcher as a command (spec 42_inverse_search.md). -/

namespace Sys2Proof.Machine

variable {W : Nat}

/-- MODINV (R113): a zero modulus fails; finding no inverse is a result, `SENT`. -/
def execModinv (s : State W) : Result W :=
  if opbNat s = 0 then fail .zeroModulus s
  else completeWith (inverseWord (modInv (opaNat s) (opbNat s))) s

end Sys2Proof.Machine
end

