-- ==== Sys2Proof/Machine/Flags.lean ====
section
/-! DEFINITION. The words `STATUS` and `CFG` show (spec 10_state.md rules R28 to R31). The block has no other flag
(R30). -/

namespace Sys2Proof.Machine

variable {W : Nat}

/-- The number of a code (R150). -/
def Code.bits : Code → BitVec 3
  | .ok => 0
  | .illegalCmd => 1
  | .invalidKeyMaterial => 2
  | .degeneratePhi => 3
  | .overflow => 4
  | .zeroModulus => 5

/-- `KEY_D = SENT`: no private exponent was found (R28, R29). -/
def KeyState.noInverse (k : KeyState W) : Bool := k.d == Word.sent

/-- The word `STATUS` reads as: `CODE` in `[2:0]`, `NOINV` in bit 4, every other bit 0 (R28). -/
def statusWord (s : State W) : Word W :=
  s.code.bits.setWidth W ||| ((BitVec.ofBool s.key.noInverse).setWidth W <<< 4)

/-- The word `CFG` reads as: `STRATEGY` in bit 0, every other bit 0 (R31). -/
def cfgWord (s : State W) : Word W := s.strategy.bit.setWidth W

end Sys2Proof.Machine
end

