-- ==== Sys2Proof/Machine/ModexpTransforms.lean ====
section
/-! DEFINITION. Modular exponentiation and the unit transforms (spec 44_modexp_transforms.md). -/

namespace Sys2Proof.Machine

variable {W : Nat}

/-- MODEXP (R137): a zero modulus fails. -/
def execModexp (s : State W) : Result W :=
  if opcNat s = 0 then fail .zeroModulus s
  else completeWith (powerWord s.opa s.opb s.opc) s

/-- ENCRYPT (R140): no error path; an operand not below `KEY_N` is reduced by the loop (R141). -/
def execEncrypt (s : State W) : Result W := completeWith (powerWord s.opa s.key.e s.key.n) s

/-- The word DECRYPT returns (R143): the transform with `d` and `n`, or, when no inverse was found, the free
`NoInvResult` of the operand and the rest of the key (R144). -/
def decryptWord (c : Word W) (k : KeyState W) : Word W :=
  if k.noInverse then Config.noInvResult c k.p k.q k.n k.phi k.e else powerWord c k.d k.n

/-- DECRYPT (R143): completes with `OK` on either path. -/
def execDecrypt (s : State W) : Result W := completeWith (decryptWord s.opa s.key) s

end Sys2Proof.Machine
end

