-- ==== Sys2Proof/Machine/MultiplyPrimality.lean ====
section
/-! DEFINITION. The multiplier and the primality checker as commands (spec 40_multiply_primality.md). -/

namespace Sys2Proof.Machine

variable {W : Nat}

/-- MUL (R91): the exact product of `OPA` and `OPB`, low and high word; it cannot fail. -/
def execMul (s : State W) : Result W := completeProduct (mulFull (opaNat s) (opbNat s)) s

/-- ISPRIME (R95): 1 if `OPA` is prime, else 0; a composite operand is a result, not an error. -/
def execIsprime (s : State W) : Result W := completeWith (testWord (isPrime (opaNat s))) s

end Sys2Proof.Machine
end

