-- ==== Sys2Proof/Machine/Dispatch.lean ====
section
/-! DEFINITION. One arm per command (spec 30_encoding.md rule R72), for the reference instantiation MEE-W32; the same
arms at every width are `execAt`. -/

namespace Sys2Proof.Machine

def exec (i : Instr) (s : State) : Host.Outcome State Fault Refusal :=
  match i with
  | .derive => Sys2Proof.Machine.execDerive s
  | .encrypt => Sys2Proof.Machine.execEncrypt s
  | .decrypt => Sys2Proof.Machine.execDecrypt s
  | .modexp => Sys2Proof.Machine.execModexp s
  | .modinv => Sys2Proof.Machine.execModinv s
  | .mul => Sys2Proof.Machine.execMul s
  | .gcd => Sys2Proof.Machine.execGcd s
  | .coprime => Sys2Proof.Machine.execCoprime s
  | .isprime => Sys2Proof.Machine.execIsprime s
  | .findexp => Sys2Proof.Machine.execFindexp s

end Sys2Proof.Machine
end

