-- ==== Sys2Proof/Machine/Commands.lean ====
section
/-! DEFINITION. The commands at every width (spec 30_encoding.md rule R72, 00_scope.md R8). `exec` of
Machine/Dispatch.lean is this function at the reference width. -/

namespace Sys2Proof.Machine

/-- What a command does, at any width `W`. -/
def execAt {W : Nat} (i : Instr) (s : State W) : Result W :=
  match i with
  | .derive => execDerive s
  | .encrypt => execEncrypt s
  | .decrypt => execDecrypt s
  | .modexp => execModexp s
  | .modinv => execModinv s
  | .mul => execMul s
  | .gcd => execGcd s
  | .coprime => execCoprime s
  | .isprime => execIsprime s
  | .findexp => execFindexp s

end Sys2Proof.Machine
end

