-- ==== Sys2Proof/Machine/Port.lean ====
section
/-! DEFINITION. The register window and the port (spec 20_memory.md rules R50 to R68): what a host action does. -/

namespace Sys2Proof.Machine

variable {W : Nat}

/-- The word a slot reads as (R51, R52): `CMD` and the reserved slots read 0 (R32, R56). -/
def readSlot (s : State W) : Slot → Word W
  | .cmd => 0
  | .status => statusWord s
  | .opa => s.opa
  | .opb => s.opb
  | .opc => s.opc
  | .resLo => s.resLo
  | .resHi => s.resHi
  | .cfg => cfgWord s
  | .keyP => s.key.p
  | .keyQ => s.key.q
  | .keyN => s.key.n
  | .keyPhi => s.key.phi
  | .keyE => s.key.e
  | .keyD => s.key.d
  | .reserved14 => 0
  | .reserved15 => 0

/-- `HostRead(idx)` (R52). -/
def hostRead (idx : BitVec 4) (s : State W) : Word W := readSlot s (Slot.ofIndex idx)

/-- Runs the command a word spells; an illegal word fails and changes nothing else (R32, R70, R73, R151). -/
def runWord (v : Word W) (s : State W) : Result W :=
  match decode v with
  | .command i => execAt i s
  | .illegal _ => fail .illegalCmd s

/-- `HostWrite(idx, v)`: the operand registers store (R53), `CMD` runs a command (R54), and a write to a read-only or
reserved slot is ignored (R55, R56). -/
def writeSlot (v : Word W) (s : State W) : Slot → Result W
  | .cmd => runWord v s
  | .opa => .next (s.withOpa v)
  | .opb => .next (s.withOpb v)
  | .opc => .next (s.withOpc v)
  | .status | .resLo | .resHi | .cfg | .keyP | .keyQ | .keyN | .keyPhi | .keyE | .keyD
  | .reserved14 | .reserved15 => .next s

/-- `HostWrite(idx, v)` by index. -/
def hostWrite (idx : BitVec 4) (v : Word W) (s : State W) : Result W := writeSlot v s (Slot.ofIndex idx)

/-- One host action, taken off the queue already, with everything it starts, as one step (R16, R59, R62). -/
def perform (a : HostAction W) (s : State W) : Result W :=
  match a with
  | .read idx => .next (s.withReply (.data (hostRead idx s)))
  | .write idx v => hostWrite idx v (s.withReply .ack)
  | .reset strategy => .next (resetEvent strategy s)

/-- The step at any width: the oldest waiting action of the host; with none waiting the block holds its registers (R165, R178;
notes/assumptions/9.md). -/
def stepAt (s : State W) : Result W :=
  match s.pending with
  | [] => .next (s.withReply .idle)
  | a :: rest => perform a (s.withPending rest)

/-- The host's next action becomes a write of `v` to `CMD`. -/
def issueCommand (v : Word W) (s : State W) : State W :=
  s.withPending (.write Slot.cmd.index v :: s.pending)

end Sys2Proof.Machine
end

