-- ==== Sys2Proof/Machine/Step.lean ====
section
/-! DEFINITION. The step, and how an instruction is put where the next step finds it. -/

namespace Sys2Proof.Machine

/-- One step of the reference instantiation: one host action with the command it may start (spec 00_scope.md rule
R16). -/
def step (s : State) : Host.Outcome State Fault Refusal := stepAt s

/-- The block fetches nothing (R27): the next command is the word the host writes next to `CMD`. The write goes to the
head of the host's queue (notes/assumptions/3.md). -/
def State.withFetchWord (s : State) (nbits w : Nat) : State := issueCommand (tableWord nbits w) s

end Sys2Proof.Machine
end

