-- ==== Sys2Proof/Machine/Cost.lean ====
section
/-! DEFINITION. The iteration counts of the units (spec 70_reset_and_hazards.md rules R191, R192): the same loops,
counted. They are timing; nothing in the state or the step depends on them (R190). Whether PRIME stops at the first
divisor is not stated (R96), so it has a bound and no count (notes/assumptions/10.md). -/

namespace Sys2Proof.Machine

variable {W : Nat}

/-- The candidates `scanLast` tests. -/
def scanLastTests (test : Nat → Bool) (hi : Nat) : Nat → Nat
  | 0 => 0
  | k + 1 => if test (hi - (k + 1)) then 1 else scanLastTests test hi k + 1

/-- INVS: the candidates tested by `modInv a m` (R191). -/
def modInvTests (a m : Nat) : Nat := scanLastTests (fun x => mulFull (a % m) x % m == 1) m (m - 1)

/-- ESCAN: the candidates tested by `findExp phi` (R191). -/
def findExpTests (phi : Nat) : Nat := scanLastTests (fun x => coprime x phi) phi (phi - 2)

/-- The replacements `euclidLoop` makes. -/
def euclidLoopSteps : Nat → Nat → Nat → Nat
  | 0, _, _ => 0
  | fuel + 1, a, b => if b = 0 then 0 else euclidLoopSteps fuel b (a % b) + 1

/-- GCDC: the replacements of `(a, b)` by `(b, a mod b)` (R191). -/
def euclidSteps (a b : Nat) : Nat := euclidLoopSteps b a b

/-- The multiply-and-reduce steps `powerLoop` makes. -/
def powerLoopSteps : Nat → Nat
  | 0 => 0
  | k + 1 => powerLoopSteps k + 1

/-- MEXP: the steps of `modExp base exp n` (R191). -/
def modExpSteps (_base exp _n : Nat) : Nat := powerLoopSteps exp

/-- PRIME: the most trial divisions `isPrime num` makes (R191). -/
def isPrimeTestsBound (num : Nat) : Nat := if num ≤ 3 then 0 else isqrt num - 1

/-- ENCRYPT: the steps of its exponentiation (R191). -/
def encryptSteps (s : State W) : Nat := modExpSteps s.opa.toNat s.key.e.toNat s.key.n.toNat

/-- DECRYPT: the steps of its exponentiation; not specified when the key has no private exponent (R191). -/
def decryptSteps (s : State W) : Option Nat :=
  if s.key.noInverse then none else some (modExpSteps s.opa.toNat s.key.d.toNat s.key.n.toNat)

end Sys2Proof.Machine
end

