-- ==== Sys2Proof/Safety.lean ====
section
/-! DEFINITION. The terms claims are made in: a consistent key, the states a run reaches, and what a command may
read and write (spec 10_state.md rules R22, R23, R34 to R36). -/

namespace Sys2Proof.Machine

variable {W : Nat}

/-- What R35 and R36 say of the key registers under a strategy, in every state reachable from reset. -/
structure KeyConsistent (strategy : Strategy) (k : KeyState W) : Prop where
  p_prime : k.p.toNat.Prime
  q_prime : k.q.toNat.Prime
  n_eq : k.n.toNat = k.p.toNat * k.q.toNat
  phi_eq : k.phi.toNat = (k.p.toNat - 1) * (k.q.toNat - 1)
  n_ge : 4 ≤ k.n.toNat
  phi_pos : 1 ≤ k.phi.toNat
  phi_lt : k.phi.toNat < k.n.toNat
  e_ge : 2 ≤ k.e.toNat
  d_inverse : k.d ≠ Word.sent →
    1 ≤ k.d.toNat ∧ k.d.toNat < k.phi.toNat ∧ k.e.toNat * k.d.toNat % k.phi.toNat = 1
  scan : strategy = .searchSmallestCoprime →
    3 ≤ k.phi.toNat ∧ k.e.toNat < k.phi.toNat ∧ Nat.Coprime k.e.toNat k.phi.toNat ∧ k.d ≠ Word.sent
  fixed : strategy = .fixedExponent17 →
    k.e.toNat = 17 ∧ (k.d = Word.sent ↔ ¬ Nat.Coprime 17 k.phi.toNat ∨ k.phi.toNat = 1)

/-- The invariant of the machine: the key registers are consistent under `CFG.STRATEGY`. -/
def State.Inv (s : State W) : Prop := KeyConsistent s.strategy s.key

/-- The states a run reaches (R16): from a reset, by steps, the host issuing whatever actions it likes between
them. -/
inductive Reachable : State W → Prop where
  | reset (strategy : Strategy) : Reachable (State.resetWith strategy W)
  | issue {s : State W} (l : List (HostAction W)) : Reachable s → Reachable (s.withPending l)
  | step {s t : State W} : Reachable s → stepAt s = .next t → Reachable t

/-- `k` steps, one host action each (R62). -/
def steps : Nat → State W → Result W
  | 0, s => .next s
  | k + 1, s =>
    match stepAt s with
    | .next t => steps k t
    | .fault r => .fault r
    | .refused r => .refused r

/-- The two states agree on every register `i` reads by R23. -/
def AgreeOnReads (s t : State W) : Instr → Prop
  | .derive => s.opa = t.opa ∧ s.opb = t.opb ∧ s.strategy = t.strategy
  | .encrypt => s.opa = t.opa ∧ s.key.e = t.key.e ∧ s.key.n = t.key.n
  | .decrypt => s.opa = t.opa ∧ s.key = t.key
  | .modexp => s.opa = t.opa ∧ s.opb = t.opb ∧ s.opc = t.opc
  | .modinv | .mul | .gcd | .coprime => s.opa = t.opa ∧ s.opb = t.opb
  | .isprime | .findexp => s.opa = t.opa

/-- The two states agree on every register of R20 (the port's own record apart). -/
def SameRegisters (s t : State W) : Prop :=
  s.code = t.code ∧ s.opa = t.opa ∧ s.opb = t.opb ∧ s.opc = t.opc ∧ s.resLo = t.resLo ∧ s.resHi = t.resHi ∧
    s.strategy = t.strategy ∧ s.key = t.key

/-- The state with operands in `OPA`, `OPB`, `OPC`, in the order R77 writes them. -/
def withOperands (s : State W) : List Nat → State W
  | [] => s
  | [a] => { s with opa := Word.low a }
  | [a, b] => { s with opa := Word.low a, opb := Word.low b }
  | a :: b :: c :: _ => { s with opa := Word.low a, opb := Word.low b, opc := Word.low c }

/-- The command writes `RES_LO` and `RES_HI` when it succeeds (R22, R23): every one but DERIVE. -/
def writesResult : Instr → Bool
  | .derive => false
  | .encrypt | .decrypt | .modexp | .modinv | .mul | .gcd | .coprime | .isprime | .findexp => true

/-- The codes a command can end with (R150). -/
def possibleCodes : Instr → List Code
  | .derive => [.ok, .invalidKeyMaterial, .degeneratePhi, .overflow]
  | .findexp => [.ok, .degeneratePhi]
  | .modexp | .modinv => [.ok, .zeroModulus]
  | .mul | .gcd | .coprime | .isprime | .encrypt | .decrypt => [.ok]

end Sys2Proof.Machine
end

