-- ==== Sys2Proof/Certificates/Slice0/Obligations.lean ====
section
/-! DEFINITION. What the model claims, in the spec's terms. A statement about a command gives the whole next state:
the registers it writes and, by the record update, that it writes no other. -/

open Sys2Proof Sys2Proof.Machine

/-! ## Encoding -/

/-- 30_encoding.md R71, R72: decoding is the table of the low four bits when all upper bits are zero. -/
def Obligations.DecodeIsTheOpcodeMap : Prop :=
  ∀ v : Word, decode v =
    if v.toNat / 16 ≠ 0 then .illegal .upperBitsSet
    else match v.toNat with
      | 1 => .command .derive
      | 2 => .command .encrypt
      | 3 => .command .decrypt
      | 4 => .command .modexp
      | 5 => .command .modinv
      | 6 => .command .mul
      | 7 => .command .gcd
      | 8 => .command .coprime
      | 9 => .command .isprime
      | 10 => .command .findexp
      | _ => .illegal .unassignedOpcode

/-- 30_encoding.md R78: a word spells a command exactly when it is that command's word. -/
def Obligations.DecodeIsInverseOfEncode : Prop :=
  ∀ (v : Word) (i : Instr), decode v = .command i ↔ v = encode i

/-- 30_encoding.md R72 and the words of 95_test_vectors.md V-ILL, as the table numbers them. -/
def Obligations.TableWordsDecode : Prop :=
  decodeTableWord 32 0x00000001 = some .derive ∧ decodeTableWord 32 0x00000002 = some .encrypt ∧
  decodeTableWord 32 0x00000003 = some .decrypt ∧ decodeTableWord 32 0x00000004 = some .modexp ∧
  decodeTableWord 32 0x00000005 = some .modinv ∧ decodeTableWord 32 0x00000006 = some .mul ∧
  decodeTableWord 32 0x00000007 = some .gcd ∧ decodeTableWord 32 0x00000008 = some .coprime ∧
  decodeTableWord 32 0x00000009 = some .isprime ∧ decodeTableWord 32 0x0000000A = some .findexp ∧
  decodeTableWord 32 0x00000000 = none ∧ decodeTableWord 32 0x0000000B = none ∧
  decodeTableWord 32 0x00000012 = none ∧ decodeTableWord 32 0x00000016 = none ∧
  decodeTableWord 32 0x80000001 = none ∧ decodeTableWord 32 0xFFFFFFFF = none

/-- 30_encoding.md R76: statements, host actions and port triples spell one another. The `wdata` of a read is the
model's choice (notes/assumptions/14.md) and is not part of the claim. -/
def Obligations.HostNotationRoundTrip : Prop :=
  (∀ st : Statement, st.wf = true → st.toAction.toStatement = st) ∧
  (∀ a : HostAction, a.toStatement.toAction = a) ∧
  (∀ (a : HostAction) (p : PortAccess), a.toPort = some p → p.toAction = a)

/-- 30_encoding.md R77: running the expansion of a pseudo-instruction is running its command on the state with the
operands in place. -/
def Obligations.PseudoExpansionRunsTheCommand : Prop :=
  ∀ (p : Pseudo) (s : State) (rest : List HostAction), p.wf = true →
    s.pending = p.expand.map Statement.toAction ++ rest →
    steps p.expand.length s =
      exec p.command { withOperands s p.operands with pending := rest, reply := .ack }

/-! ## The step, reset and the window -/

/-- 20_memory.md R54: a write to `CMD` runs the decoded command on the state the write finds, as one step. Around the
command the step takes the action off the queue and answers `ack` (notes/assumptions/3.md, 4.md). -/
def Obligations.StepRunsTheDecodedCommand : Prop :=
  ∀ (s : State) (v : Word) (rest : List HostAction) (i : Instr),
    s.pending = .write 0 v :: rest → decode v = .command i →
    step s = exec i { s with pending := rest, reply := .ack }

/-- The same for the word `State.withFetchWord` puts in front of the step. -/
def Obligations.StepRunsTheFetchedWord : Prop :=
  ∀ (s : State) (nbits w : Nat) (i : Instr), decodeTableWord nbits w = some i →
    step (s.withFetchWord nbits w) = exec i { s with reply := .ack }

/-- 30_encoding.md R73, 60_exceptions.md R151: an illegal word written to `CMD` sets the code and nothing else. -/
def Obligations.IllegalWordSetsOnlyTheCode : Prop :=
  ∀ (s : State) (v : Word) (rest : List HostAction), s.pending = .write 0 v :: rest →
    (v.toNat / 16 ≠ 0 ∨ v.toNat % 16 = 0 ∨ 11 ≤ v.toNat % 16) →
    ∃ t, step s = .next t ∧ SameRegisters t { s with code := .illegalCmd }

/-- 70_reset_and_hazards.md R175, 10_state.md R40: every register after a reset, from any state. -/
def Obligations.ResetSetsEveryRegister : Prop :=
  ∀ (s : State) (strap : Strategy) (rest : List HostAction), s.pending = .reset strap :: rest →
    ∃ t, step s = .next t ∧ t.code = .ok ∧ t.opa = 0 ∧ t.opb = 0 ∧ t.opc = 0 ∧ t.resLo = 0 ∧ t.resHi = 0 ∧
      t.strategy = strap ∧ t.key.p = 61 ∧ t.key.q = 53 ∧ t.key.n = 3233 ∧ t.key.phi = 3120 ∧
      (strap = .fixedExponent17 → t.key.e = 17 ∧ t.key.d = 2753) ∧
      (strap = .searchSmallestCoprime → t.key.e = 7 ∧ t.key.d = 1783) ∧ t.key.noInverse = false

/-- 70_reset_and_hazards.md R177, as far as atomic commands show it (notes/assumptions/5.md): what a reset leaves does
not depend on whether a command ran before it. -/
def Obligations.ResetShowsNoTraceOfACommand : Prop :=
  ∀ (i : Instr) (s t u v : State) (strap : Strategy) (rest : List HostAction),
    exec i s = .next t → step { s with pending := .reset strap :: rest } = .next u →
    step { t with pending := .reset strap :: rest } = .next v → u = v

/-- 70_reset_and_hazards.md R176: the reset key is what `DERIVE 61, 53` commits. -/
def Obligations.ResetKeyIsTheDerivedKey : Prop :=
  ∀ s : State, s.opa = 61 → s.opb = 53 →
    exec .derive s = .next { s with key := (State.resetWith s.strategy).key, code := .ok }

/-- 20_memory.md R52: what a read returns, that it changes no register, and that it can be repeated. -/
def Obligations.ReadReturnsTheSlotAndChangesNothing : Prop :=
  ∀ (s : State) (idx : BitVec 4) (rest : List HostAction), s.pending = .read idx :: rest →
    ∃ t, step s = .next t ∧ SameRegisters t s ∧ t.pending = rest ∧
      t.reply = .data
        (match idx.toNat with
          | 1 => statusWord s
          | 2 => s.opa
          | 3 => s.opb
          | 4 => s.opc
          | 5 => s.resLo
          | 6 => s.resHi
          | 7 => cfgWord s
          | 8 => s.key.p
          | 9 => s.key.q
          | 10 => s.key.n
          | 11 => s.key.phi
          | 12 => s.key.e
          | 13 => s.key.d
          | _ => 0) ∧
      ∀ rest', rest = .read idx :: rest' → ∃ u, step t = .next u ∧ u.reply = t.reply ∧ SameRegisters u s

/-- 20_memory.md R53: a write to an operand register stores the word and does nothing else. -/
def Obligations.OperandWriteStoresAndNothingElse : Prop :=
  ∀ (s : State) (v : Word) (rest : List HostAction),
    (s.pending = .write 2 v :: rest → ∃ t, step s = .next t ∧ SameRegisters t { s with opa := v }) ∧
    (s.pending = .write 3 v :: rest → ∃ t, step s = .next t ∧ SameRegisters t { s with opb := v }) ∧
    (s.pending = .write 4 v :: rest → ∃ t, step s = .next t ∧ SameRegisters t { s with opc := v })

/-- 20_memory.md R55: a write to a read-only register changes nothing. -/
def Obligations.ReadOnlyWriteIsIgnored : Prop :=
  ∀ (s : State) (idx : BitVec 4) (v : Word) (rest : List HostAction), s.pending = .write idx v :: rest →
    idx.toNat ∈ [1, 5, 6, 7, 8, 9, 10, 11, 12, 13] → ∃ t, step s = .next t ∧ SameRegisters t s

/-- 20_memory.md R56: the reserved slots read 0 and ignore writes. -/
def Obligations.ReservedSlotsHoldNothing : Prop :=
  ∀ (s : State) (idx : BitVec 4) (v : Word) (rest : List HostAction), idx.toNat = 14 ∨ idx.toNat = 15 →
    (s.pending = .read idx :: rest → ∃ t, step s = .next t ∧ t.reply = .data 0 ∧ SameRegisters t s) ∧
    (s.pending = .write idx v :: rest → ∃ t, step s = .next t ∧ SameRegisters t s)

/-- 70_reset_and_hazards.md R178, 60_exceptions.md R165, as the model reads them (notes/assumptions/9.md): with no
access waiting the block holds its registers. -/
def Obligations.IdleBlockHoldsItsRegisters : Prop :=
  ∀ s : State, s.pending = [] → ∃ t, step s = .next t ∧ SameRegisters t s ∧ t.pending = []

/-- 70_reset_and_hazards.md R190, 20_memory.md R62: every step ends, and takes exactly the oldest action. The queue the
clause about `pending` speaks of is the model's own (notes/assumptions/3.md), and so are two choices in it: the actions
waiting behind a reset stay (18.md), and with none waiting the step is an idle one (9.md). -/
def Obligations.EveryStepEndsInOrder : Prop :=
  ∀ s : State, ∃ t, step s = .next t ∧ t.pending = s.pending.tail

/-! ## Status and configuration -/

/-- 10_state.md R28, 60_exceptions.md R150: the word `STATUS` reads as. -/
def Obligations.StatusWordLayout : Prop :=
  ∀ s : State, (statusWord s).toNat =
    (match s.code with
      | .ok => 0
      | .illegalCmd => 1
      | .invalidKeyMaterial => 2
      | .degeneratePhi => 3
      | .overflow => 4
      | .zeroModulus => 5) + if s.key.d = Word.sent then 16 else 0

/-- 10_state.md R31: the word `CFG` reads as, that a reset stores its strap in it, and that nothing else changes it. -/
def Obligations.CfgIsTheStrapOfTheLatestReset : Prop :=
  (∀ s : State, (cfgWord s).toNat = if s.strategy = .searchSmallestCoprime then 1 else 0) ∧
  (∀ (s : State) (strap : Strategy) (rest : List HostAction), s.pending = .reset strap :: rest →
    ∃ t, step s = .next t ∧ t.strategy = strap) ∧
  (∀ s t : State, step s = .next t → t.strategy ≠ s.strategy →
    ∃ rest, s.pending = .reset t.strategy :: rest)

/-- 60_exceptions.md R150: the codes each command can end with. -/
def Obligations.CodesEachCommandCanEndWith : Prop :=
  ∀ (i : Instr) (s t : State), exec i s = .next t →
    (t.code = .ok ∨
      (t.code = .invalidKeyMaterial ∧ i = .derive) ∨
      (t.code = .degeneratePhi ∧ (i = .findexp ∨ (i = .derive ∧ s.strategy = .searchSmallestCoprime))) ∨
      (t.code = .overflow ∧ i = .derive) ∨
      (t.code = .zeroModulus ∧ (i = .modexp ∨ i = .modinv)))

/-- 60_exceptions.md R156: a write to `CMD` that ends with a code other than OK changes nothing but the code. -/
def Obligations.FailureChangesOnlyTheCode : Prop :=
  ∀ (v : Word) (s t : State), hostWrite 0 v s = .next t → t.code ≠ .ok → t = { s with code := t.code }

/-- 60_exceptions.md R159: what a write to `CMD` does is the same whatever code the
command before it left. -/
def Obligations.FailureDoesNotLockTheEngine : Prop :=
  ∀ (v : Word) (s : State) (c : Code), hostWrite 0 v { s with code := c } = hostWrite 0 v s

/-! ## What a command may read and write -/

/-- 10_state.md R21: a write to `CMD`, whatever comes of it, leaves the operand registers. -/
def Obligations.CommandsKeepTheOperands : Prop :=
  ∀ (v : Word) (s t : State), hostWrite 0 v s = .next t → t.opa = s.opa ∧ t.opb = s.opb ∧ t.opc = s.opc

/-- 10_state.md R22: when the result registers change, and that only MUL leaves `RES_HI` nonzero. -/
def Obligations.ResultRegistersFollowTheOutcome : Prop :=
  ∀ (i : Instr) (s t : State), exec i s = .next t →
    (t.code ≠ .ok ∨ i = .derive → t.resLo = s.resLo ∧ t.resHi = s.resHi) ∧
    (t.code = .ok → i ≠ .derive → i ≠ .mul → t.resHi = 0)

/-- 10_state.md R23, 44_modexp_transforms.md R147: a command writes the registers its row lists from the registers
its row lists. -/
def Obligations.CommandsDependOnlyOnTheirOperands : Prop :=
  ∀ (i : Instr) (s₁ s₂ t₁ t₂ : State), AgreeOnReads s₁ s₂ i → exec i s₁ = .next t₁ → exec i s₂ = .next t₂ →
    t₁.code = t₂.code ∧
    (t₁.code = .ok → i ≠ .derive → t₁.resLo = t₂.resLo ∧ t₁.resHi = t₂.resHi ∧
      t₁ = { s₁ with code := .ok, resLo := t₁.resLo, resHi := t₁.resHi }) ∧
    (t₁.code = .ok → i = .derive → t₁.key = t₂.key ∧ t₁ = { s₁ with code := .ok, key := t₁.key })

/-- 10_state.md R34: the key changes by reset and by a DERIVE that ends with OK, as a whole. -/
def Obligations.KeyChangesOnlyByResetOrDerive : Prop :=
  ∀ s t : State, step s = .next t → t.key ≠ s.key →
    (∃ strap rest, s.pending = .reset strap :: rest ∧ t.key = (State.resetWith strap).key) ∨
    (∃ v rest k, s.pending = .write 0 v :: rest ∧ decode v = .command .derive ∧ t.code = .ok ∧
      deriveKeys Config.W s.strategy s.opa.toNat s.opb.toNat = .ok k ∧ t.key = keyWords s.opa s.opb k)

/-! ## The unit commands -/

/-- 40_multiply_primality.md R91: MUL gives the two words of the exact product. -/
def Obligations.MulGivesTheExactProduct : Prop :=
  ∀ s : State, ∃ lo hi : Word, exec .mul s = .next { s with resLo := lo, resHi := hi, code := .ok } ∧
    lo.toNat = s.opa.toNat * s.opb.toNat % 2 ^ Config.W ∧
    hi.toNat = s.opa.toNat * s.opb.toNat / 2 ^ Config.W

/-- 40_multiply_primality.md R93, R95: ISPRIME answers 0 exactly when the operand is at most 1 or has a divisor in
`[2, isqrt(num)]`, and 1 otherwise; that is primality. -/
def Obligations.IsprimeDecidesPrimality : Prop :=
  ∀ s : State, ∃ r : Word, exec .isprime s = .next { s with resLo := r, resHi := 0, code := .ok } ∧
    (r = 0 ∨ r = 1) ∧
    (r = 0 ↔ s.opa.toNat ≤ 1 ∨ ∃ i, 2 ≤ i ∧ i * i ≤ s.opa.toNat ∧ s.opa.toNat % i = 0) ∧
    (r = 1 ↔ s.opa.toNat.Prime)

/-- 41_gcd_exponent_search.md R100, R102: GCD gives the result of the Euclidean recursion. -/
def Obligations.GcdRunsTheEuclideanRecursion : Prop :=
  (∀ a b : Nat, euclid a b = if b = 0 then a else euclid b (a % b)) ∧
  ∀ s : State, ∃ r : Word, exec .gcd s = .next { s with resLo := r, resHi := 0, code := .ok } ∧
    r.toNat = euclid s.opa.toNat s.opb.toNat

/-- 41_gcd_exponent_search.md R101, an inference the spec marks as its own: it is the greatest common divisor. -/
def Obligations.GcdIsTheGreatestCommonDivisor : Prop :=
  ∀ s : State, ∃ r : Word, exec .gcd s = .next { s with resLo := r, resHi := 0, code := .ok } ∧
    r.toNat = Nat.gcd s.opa.toNat s.opb.toNat

/-- 41_gcd_exponent_search.md R103: COPRIME answers 1 when the gcd is 1 and 0 otherwise. -/
def Obligations.CoprimeTestsTheGcd : Prop :=
  ∀ s : State, exec .coprime s =
    .next { s with resLo := if Nat.gcd s.opa.toNat s.opb.toNat = 1 then 1 else 0, resHi := 0, code := .ok }

/-- 41_gcd_exponent_search.md R105, R107: FINDEXP rejects `phi <= 2`, and for every other operand gives the least
`x` in `[2, phi)` with gcd 1. -/
def Obligations.FindexpGivesTheLeastExponent : Prop :=
  ∀ s : State,
    (s.opa.toNat ≤ 2 → exec .findexp s = .next { s with code := .degeneratePhi }) ∧
    (3 ≤ s.opa.toNat → ∃ r : Word, exec .findexp s = .next { s with resLo := r, resHi := 0, code := .ok } ∧
      2 ≤ r.toNat ∧ r.toNat < s.opa.toNat ∧ Nat.gcd r.toNat s.opa.toNat = 1 ∧
      ∀ y, 2 ≤ y → y < r.toNat → Nat.gcd y s.opa.toNat ≠ 1)

/-- 41_gcd_exponent_search.md R106, an inference the spec marks as its own: it is the smallest prime that does not
divide `phi`. -/
def Obligations.FindexpGivesTheSmallestNondivisorPrime : Prop :=
  ∀ s : State, 3 ≤ s.opa.toNat →
    ∃ r : Word, exec .findexp s = .next { s with resLo := r, resHi := 0, code := .ok } ∧
      r.toNat.Prime ∧ ¬ r.toNat ∣ s.opa.toNat ∧ ∀ p : Nat, p.Prime → p < r.toNat → p ∣ s.opa.toNat

/-- 42_inverse_search.md R110, R113: MODINV fails for a zero modulus, and otherwise gives the first candidate that
passes, or the sentinel when none does. -/
def Obligations.ModinvGivesTheFirstInverse : Prop :=
  ∀ s : State,
    (s.opb.toNat = 0 → exec .modinv s = .next { s with code := .zeroModulus }) ∧
    (1 ≤ s.opb.toNat → ∃ r : Word, exec .modinv s = .next { s with resLo := r, resHi := 0, code := .ok } ∧
      ((1 ≤ r.toNat ∧ r.toNat < s.opb.toNat ∧ s.opa.toNat % s.opb.toNat * r.toNat % s.opb.toNat = 1 ∧
          ∀ y, 1 ≤ y → y < r.toNat → s.opa.toNat % s.opb.toNat * y % s.opb.toNat ≠ 1) ∨
        (r.toNat = 2 ^ Config.W - 1 ∧
          ∀ y, 1 ≤ y → y < s.opb.toNat → s.opa.toNat % s.opb.toNat * y % s.opb.toNat ≠ 1)))

/-- 42_inverse_search.md R112 (d) to (g), inferences the spec marks as its own: the sentinel means that no inverse
exists, and an inverse is unique. -/
def Obligations.ModinvFindsAnInverseIffThereIsOne : Prop :=
  ∀ s : State, 1 ≤ s.opb.toNat →
    ∃ r : Word, exec .modinv s = .next { s with resLo := r, resHi := 0, code := .ok } ∧
      (r = Word.sent ↔ s.opb.toNat = 1 ∨ Nat.gcd s.opa.toNat s.opb.toNat ≠ 1) ∧
      (r ≠ Word.sent → s.opa.toNat * r.toNat % s.opb.toNat = 1 ∧
        ∀ y, y < s.opb.toNat → s.opa.toNat * y % s.opb.toNat = 1 → y = r.toNat)

/-- 44_modexp_transforms.md R135, R137: MODEXP fails for a zero modulus, and otherwise gives the accumulator after
`exp` multiply-and-reduce steps from 1. -/
def Obligations.ModexpRunsTheNaiveLoop : Prop :=
  ∀ s : State,
    (s.opc.toNat = 0 → exec .modexp s = .next { s with code := .zeroModulus }) ∧
    (1 ≤ s.opc.toNat → ∃ r : Word, exec .modexp s = .next { s with resLo := r, resHi := 0, code := .ok } ∧
      ∃ acc : Nat → Nat, acc 0 = 1 ∧
        (∀ k, k < s.opb.toNat → acc (k + 1) = acc k * s.opa.toNat % s.opc.toNat) ∧ r.toNat = acc s.opb.toNat)

/-- 44_modexp_transforms.md R136, an inference the spec marks as its own: the result is the power's remainder for
every exponent but 0, where it is 1. -/
def Obligations.ModexpIsThePowerRemainder : Prop :=
  ∀ s : State, 1 ≤ s.opc.toNat →
    ∃ r : Word, exec .modexp s = .next { s with resLo := r, resHi := 0, code := .ok } ∧
      (s.opb.toNat = 0 → r = 1) ∧
      (1 ≤ s.opb.toNat → r.toNat = s.opa.toNat ^ s.opb.toNat % s.opc.toNat ∧ r.toNat < s.opc.toNat)

/-! ## The transforms -/

/-- 44_modexp_transforms.md R140: ENCRYPT always completes, with the accumulator after `KEY_E` steps. A zero `KEY_N`,
which no run reaches, leaves the value open (notes/assumptions/7.md). -/
def Obligations.EncryptRunsTheLoopWithE : Prop :=
  ∀ s : State, ∃ r : Word, exec .encrypt s = .next { s with resLo := r, resHi := 0, code := .ok } ∧
    (1 ≤ s.key.n.toNat → ∃ acc : Nat → Nat, acc 0 = 1 ∧
      (∀ k, k < s.key.e.toNat → acc (k + 1) = acc k * s.opa.toNat % s.key.n.toNat) ∧ r.toNat = acc s.key.e.toNat)

/-- 44_modexp_transforms.md R141, under the bounds R36 gives a reachable key: the result is `(m mod n)^e mod n`, below
`n`, and the corner operands. -/
def Obligations.EncryptIsThePowerRemainder : Prop :=
  ∀ s : State, 4 ≤ s.key.n.toNat → 2 ≤ s.key.e.toNat →
    ∃ r : Word, exec .encrypt s = .next { s with resLo := r, resHi := 0, code := .ok } ∧
      r.toNat = (s.opa.toNat % s.key.n.toNat) ^ s.key.e.toNat % s.key.n.toNat ∧ r.toNat < s.key.n.toNat ∧
      (s.opa = 0 → r = 0) ∧ (s.opa = 1 → r = 1) ∧
      (s.opa.toNat + 1 = s.key.n.toNat →
        (s.key.e.toNat % 2 = 1 → r = s.opa) ∧ (s.key.e.toNat % 2 = 0 → r = 1))

/-- 44_modexp_transforms.md R143, R144: DECRYPT always completes; with a private exponent it runs `KEY_D` steps, and
with the sentinel it returns the free `NoInvResult` of the operand and the key, whatever that function is. -/
def Obligations.DecryptRunsTheLoopWithDOrIsFree : Prop :=
  ∀ s : State, ∃ r : Word, exec .decrypt s = .next { s with resLo := r, resHi := 0, code := .ok } ∧
    (s.key.d = Word.sent →
      r = Config.noInvResult s.opa s.key.p s.key.q s.key.n s.key.phi s.key.e) ∧
    (s.key.d ≠ Word.sent → 1 ≤ s.key.n.toNat → ∃ acc : Nat → Nat, acc 0 = 1 ∧
      (∀ k, k < s.key.d.toNat → acc (k + 1) = acc k * s.opa.toNat % s.key.n.toNat) ∧ r.toNat = acc s.key.d.toNat)

/-- 44_modexp_transforms.md R145, R141: for distinct primes and a found private exponent, encrypting and decrypting
any word gives it back modulo `KEY_N`, hence itself when it is below `KEY_N`. -/
def Obligations.DecryptUndoesEncrypt : Prop :=
  ∀ (s : State) (m : Word), s.Inv → s.key.d ≠ Word.sent → s.key.p ≠ s.key.q →
    ∃ t u, exec .encrypt { s with opa := m } = .next t ∧ exec .decrypt { t with opa := t.resLo } = .next u ∧
      u.resLo.toNat = m.toNat % s.key.n.toNat ∧ (m.toNat < s.key.n.toNat → u.resLo = m)

/-- 44_modexp_transforms.md R145 (90_conflicts.md C4): with equal primes the round trip is not promised; the spec's
own counter-example. -/
def Obligations.EqualPrimesBreakTheRoundTrip : Prop :=
  ∀ s : State, s.key = { p := 3, q := 3, n := 9, phi := 4, e := 3, d := 3 } → s.opa = 2 →
    ∃ t u, exec .encrypt s = .next t ∧ t.resLo = 8 ∧ exec .decrypt { t with opa := t.resLo } = .next u ∧ u.resLo = 8

/-! ## Key derivation -/

/-- 43_derive_keys.md R121, R123, R125, R128, R129: when DERIVE fails, with which code, and that it changes nothing
else. -/
def Obligations.DeriveFailsInOrder : Prop :=
  ∀ s : State,
    (¬ s.opa.toNat.Prime ∨ ¬ s.opb.toNat.Prime →
      exec .derive s = .next { s with code := .invalidKeyMaterial }) ∧
    (s.opa.toNat.Prime → s.opb.toNat.Prime → 2 ^ Config.W ≤ s.opa.toNat * s.opb.toNat →
      exec .derive s = .next { s with code := .overflow }) ∧
    (s.opa.toNat.Prime → s.opb.toNat.Prime → s.opa.toNat * s.opb.toNat < 2 ^ Config.W →
      s.strategy = .searchSmallestCoprime → (s.opa.toNat - 1) * (s.opb.toNat - 1) ≤ 2 →
      exec .derive s = .next { s with code := .degeneratePhi })

/-- 43_derive_keys.md R122, R124, R126, R127: the key DERIVE commits under the fixed strategy, for every pair of primes
whose product fits. -/
def Obligations.DeriveCommitsTheFixedExponentKey : Prop :=
  ∀ s : State, s.opa.toNat.Prime → s.opb.toNat.Prime → s.opa.toNat * s.opb.toNat < 2 ^ Config.W →
    s.strategy = .fixedExponent17 →
    ∃ n phi d : Word,
      exec .derive s =
        .next { s with key := { p := s.opa, q := s.opb, n := n, phi := phi, e := 17, d := d }, code := .ok } ∧
      n.toNat = s.opa.toNat * s.opb.toNat ∧ phi.toNat = (s.opa.toNat - 1) * (s.opb.toNat - 1) ∧
      ((1 ≤ d.toNat ∧ d.toNat < phi.toNat ∧ 17 % phi.toNat * d.toNat % phi.toNat = 1 ∧
          ∀ y, 1 ≤ y → y < d.toNat → 17 % phi.toNat * y % phi.toNat ≠ 1) ∨
        (d = Word.sent ∧ ∀ y, 1 ≤ y → y < phi.toNat → 17 % phi.toNat * y % phi.toNat ≠ 1))

/-- 43_derive_keys.md R122, R125, R126, R127: the key DERIVE commits under the scan strategy, for every pair of primes
whose product fits and whose `phi` is not degenerate; an inverse is always found. -/
def Obligations.DeriveCommitsTheScannedExponentKey : Prop :=
  ∀ s : State, s.opa.toNat.Prime → s.opb.toNat.Prime → s.opa.toNat * s.opb.toNat < 2 ^ Config.W →
    s.strategy = .searchSmallestCoprime → 3 ≤ (s.opa.toNat - 1) * (s.opb.toNat - 1) →
    ∃ n phi e d : Word,
      exec .derive s =
        .next { s with key := { p := s.opa, q := s.opb, n := n, phi := phi, e := e, d := d }, code := .ok } ∧
      n.toNat = s.opa.toNat * s.opb.toNat ∧ phi.toNat = (s.opa.toNat - 1) * (s.opb.toNat - 1) ∧
      2 ≤ e.toNat ∧ e.toNat < phi.toNat ∧ Nat.gcd e.toNat phi.toNat = 1 ∧
      (∀ y, 2 ≤ y → y < e.toNat → Nat.gcd y phi.toNat ≠ 1) ∧
      1 ≤ d.toNat ∧ d.toNat < phi.toNat ∧ e.toNat * d.toNat % phi.toNat = 1

/-- 00_scope.md R8, 10_state.md R36: at every width of at least 13 bits, a derived key fits the width, keeps the
bounds, and a found private exponent is never the sentinel. -/
def Obligations.DerivedKeyBoundsAtEveryWidth : Prop :=
  ∀ (w : Nat) (strategy : Strategy) (p q : Nat) (k : Derived), 13 ≤ w → deriveKeys w strategy p q = .ok k →
    4 ≤ k.n ∧ k.n < 2 ^ w ∧ 1 ≤ k.phi ∧ k.phi < k.n ∧ 2 ≤ k.e ∧ k.e < 2 ^ w ∧
    (∀ d, k.d = some d → 1 ≤ d ∧ d < k.phi ∧ d ≠ 2 ^ w - 1 ∧ k.e * d % k.phi = 1) ∧
    (strategy = .searchSmallestCoprime → 3 ≤ k.phi ∧ k.e < k.phi ∧ Nat.Coprime k.e k.phi ∧ k.d ≠ none)

/-! ## The invariant -/

/-- 10_state.md R35, R36 at reset, under either strap. -/
def Obligations.ResetKeyIsConsistent : Prop :=
  ∀ strap : Strategy, (State.resetWith strap).Inv

/-- 10_state.md R35, R36, inferences the spec marks as its own: every step from a state with a consistent key leads to
one. -/
def Obligations.EveryStepKeepsTheKeyConsistent : Prop :=
  ∀ s t : State, s.Inv → step s = .next t → t.Inv

/-- 10_state.md R35, R36 as the spec words them: in every state reachable from a reset, whatever the host does. -/
def Obligations.ReachableKeysAreConsistent : Prop :=
  ∀ s : State, Reachable s → s.Inv

/-- 10_state.md R29, R36: `NOINV` shows exactly when the fixed exponent has no inverse, and never under the scan
strategy. -/
def Obligations.NoInvOnlyUnderTheFixedExponent : Prop :=
  ∀ s : State, Reachable s →
    ((statusWord s).getLsbD 4 = true ↔
      s.strategy = .fixedExponent17 ∧ (17 ∣ s.key.phi.toNat ∨ (s.key.p = 2 ∧ s.key.q = 2)))

/-! ## Iteration counts -/

/-- 70_reset_and_hazards.md R191: the counts of the searches, of the Euclidean loop and of the exponentiation. They are
timing, and no state depends on them (notes/assumptions/10.md). -/
def Obligations.IterationCountsOfTheUnits : Prop :=
  (∀ a m x : Nat, modInv a m = some x → modInvTests a m = x) ∧
  (∀ a m : Nat, modInv a m = none → modInvTests a m = m - 1) ∧
  (∀ phi x : Nat, findExp phi = some x → findExpTests phi = x - 1) ∧
  (∀ a : Nat, euclidSteps a 0 = 0) ∧
  (∀ a b : Nat, b ≠ 0 → euclidSteps a b = euclidSteps b (a % b) + 1) ∧
  (∀ base exp n : Nat, modExpSteps base exp n = exp)

/-! ## Every width -/

/-- 00_scope.md R8: the reference instantiation is the machine at W = 32, command by command and step by step. -/
def Obligations.ReferenceMachineIsTheMachineAtWidth32 : Prop :=
  (∀ (i : Instr) (s : State 32), exec i s = execAt i s) ∧ ∀ s : State 32, step s = stepAt s

/-- 00_scope.md R8, 30_encoding.md R72, R78: at every width a word spells a command exactly when it is that command's
word, and that word is the opcode zero-extended. -/
def Obligations.DecodeIsInverseOfEncodeAtEveryWidth : Prop :=
  ∀ W, 13 ≤ W → ∀ (v : Word W) (i : Instr),
    (decode v = .command i ↔ v = encode i) ∧ (encode i : Word W).toNat = (opcode i).toNat

/-- 00_scope.md R8, 20_memory.md R54, 30_encoding.md R73, 60_exceptions.md R156: at every width a write to `CMD` runs
the decoded command as one step, an illegal word sets the code and nothing else, and a step that leaves an error code it
did not find has changed no other register. -/
def Obligations.CommandWritesAtEveryWidth : Prop :=
  ∀ W, 13 ≤ W → ∀ (s : State W) (v : Word W) (rest : List (HostAction W)), s.pending = .write 0 v :: rest →
    (∀ i, decode v = .command i → stepAt s = execAt i { s with pending := rest, reply := .ack }) ∧
    (v.toNat / 16 ≠ 0 ∨ v.toNat % 16 = 0 ∨ 11 ≤ v.toNat % 16 →
      ∃ t, stepAt s = .next t ∧ SameRegisters t { s with code := .illegalCmd }) ∧
    ∀ t, stepAt s = .next t → t.code ≠ .ok → SameRegisters t { s with code := t.code }

/-- 00_scope.md R8, 70_reset_and_hazards.md R175: at every width the registers after a reset are these numbers, which
the bound on the width makes fit. -/
def Obligations.ResetSetsEveryRegisterAtEveryWidth : Prop :=
  ∀ W, 13 ≤ W → ∀ (s : State W) (strap : Strategy) (rest : List (HostAction W)), s.pending = .reset strap :: rest →
    ∃ t, stepAt s = .next t ∧ t.code = .ok ∧ t.opa.toNat = 0 ∧ t.opb.toNat = 0 ∧ t.opc.toNat = 0 ∧
      t.resLo.toNat = 0 ∧ t.resHi.toNat = 0 ∧ t.strategy = strap ∧ t.key.p.toNat = 61 ∧ t.key.q.toNat = 53 ∧
      t.key.n.toNat = 3233 ∧ t.key.phi.toNat = 3120 ∧
      (strap = .fixedExponent17 → t.key.e.toNat = 17 ∧ t.key.d.toNat = 2753) ∧
      (strap = .searchSmallestCoprime → t.key.e.toNat = 7 ∧ t.key.d.toNat = 1783)

/-- 00_scope.md R8, 10_state.md R28, R31: the words `STATUS` and `CFG` read as, at every width. -/
def Obligations.StatusAndCfgWordsAtEveryWidth : Prop :=
  ∀ W, 13 ≤ W → ∀ s : State W,
    (statusWord s).toNat = s.code.bits.toNat + (if s.key.d.toNat = 2 ^ W - 1 then 16 else 0) ∧
    (cfgWord s).toNat = if s.strategy = .searchSmallestCoprime then 1 else 0

/-- 00_scope.md R8 with the rules of the seven unit commands (40_multiply_primality.md R91, R95,
41_gcd_exponent_search.md R102, R103, R107, 42_inverse_search.md R113, 44_modexp_transforms.md R137): what each leaves at
every width. -/
def Obligations.UnitCommandsAtEveryWidth : Prop :=
  ∀ W, 13 ≤ W → ∀ s : State W,
    (∃ lo hi : Word W, execAt .mul s = .next { s with resLo := lo, resHi := hi, code := .ok } ∧
      lo.toNat = s.opa.toNat * s.opb.toNat % 2 ^ W ∧ hi.toNat = s.opa.toNat * s.opb.toNat / 2 ^ W) ∧
    (∃ r : Word W, execAt .isprime s = .next { s with resLo := r, resHi := 0, code := .ok } ∧
      (s.opa.toNat.Prime → r.toNat = 1) ∧ (¬ s.opa.toNat.Prime → r.toNat = 0)) ∧
    (∃ r : Word W, execAt .gcd s = .next { s with resLo := r, resHi := 0, code := .ok } ∧
      r.toNat = Nat.gcd s.opa.toNat s.opb.toNat) ∧
    (∃ r : Word W, execAt .coprime s = .next { s with resLo := r, resHi := 0, code := .ok } ∧
      r.toNat = if Nat.gcd s.opa.toNat s.opb.toNat = 1 then 1 else 0) ∧
    (s.opa.toNat ≤ 2 → execAt .findexp s = .next { s with code := .degeneratePhi }) ∧
    (3 ≤ s.opa.toNat → ∃ r : Word W, execAt .findexp s = .next { s with resLo := r, resHi := 0, code := .ok } ∧
      2 ≤ r.toNat ∧ r.toNat < s.opa.toNat ∧ Nat.gcd r.toNat s.opa.toNat = 1 ∧
      ∀ y, 2 ≤ y → y < r.toNat → Nat.gcd y s.opa.toNat ≠ 1) ∧
    (s.opb.toNat = 0 → execAt .modinv s = .next { s with code := .zeroModulus }) ∧
    (1 ≤ s.opb.toNat → ∃ r : Word W, execAt .modinv s = .next { s with resLo := r, resHi := 0, code := .ok } ∧
      ((1 ≤ r.toNat ∧ r.toNat < s.opb.toNat ∧ s.opa.toNat % s.opb.toNat * r.toNat % s.opb.toNat = 1 ∧
          ∀ y, 1 ≤ y → y < r.toNat → s.opa.toNat % s.opb.toNat * y % s.opb.toNat ≠ 1) ∨
        (r.toNat = 2 ^ W - 1 ∧
          ∀ y, 1 ≤ y → y < s.opb.toNat → s.opa.toNat % s.opb.toNat * y % s.opb.toNat ≠ 1))) ∧
    (s.opc.toNat = 0 → execAt .modexp s = .next { s with code := .zeroModulus }) ∧
    (1 ≤ s.opc.toNat → ∃ r : Word W, execAt .modexp s = .next { s with resLo := r, resHi := 0, code := .ok } ∧
      ∃ acc : Nat → Nat, acc 0 = 1 ∧
        (∀ k, k < s.opb.toNat → acc (k + 1) = acc k * s.opa.toNat % s.opc.toNat) ∧ r.toNat = acc s.opb.toNat)

/-- 00_scope.md R8, 44_modexp_transforms.md R140, R143, R145: at every width, under a consistent key with distinct primes
and a found private exponent, encrypting and decrypting a word below `KEY_N` gives it back; and without a private
exponent the free `NoInvResult` is returned. -/
def Obligations.TransformsAtEveryWidth : Prop :=
  ∀ W, 13 ≤ W → ∀ (s : State W) (m : Word W),
    (s.Inv → s.key.d ≠ Word.sent → s.key.p ≠ s.key.q →
      ∃ t u, execAt .encrypt { s with opa := m } = .next t ∧ execAt .decrypt { t with opa := t.resLo } = .next u ∧
        u.resLo.toNat = m.toNat % s.key.n.toNat) ∧
    (s.key.d = Word.sent →
      execAt .decrypt s = .next { s with
        resLo := Config.noInvResult s.opa s.key.p s.key.q s.key.n s.key.phi s.key.e, resHi := 0, code := .ok })

/-- 00_scope.md R8, 43_derive_keys.md R121 to R129: at every width, when DERIVE fails and with which code, and the
numbers it commits otherwise. -/
def Obligations.DeriveAtEveryWidth : Prop :=
  ∀ W, 13 ≤ W → ∀ s : State W,
    (¬ s.opa.toNat.Prime ∨ ¬ s.opb.toNat.Prime → execAt .derive s = .next { s with code := .invalidKeyMaterial }) ∧
    (s.opa.toNat.Prime → s.opb.toNat.Prime →
      (2 ^ W ≤ s.opa.toNat * s.opb.toNat → execAt .derive s = .next { s with code := .overflow }) ∧
      (s.opa.toNat * s.opb.toNat < 2 ^ W →
        (s.strategy = .searchSmallestCoprime → (s.opa.toNat - 1) * (s.opb.toNat - 1) ≤ 2 →
          execAt .derive s = .next { s with code := .degeneratePhi }) ∧
        (s.strategy = .fixedExponent17 ∨ 3 ≤ (s.opa.toNat - 1) * (s.opb.toNat - 1) →
          ∃ k : KeyState W, execAt .derive s = .next { s with key := k, code := .ok } ∧
            k.p = s.opa ∧ k.q = s.opb ∧ KeyConsistent s.strategy k ∧
            (s.strategy = .searchSmallestCoprime → ∀ y, 2 ≤ y → y < k.e.toNat → Nat.gcd y k.phi.toNat ≠ 1))))

/-- 00_scope.md R8, 10_state.md R35, R36, inferences the spec marks as its own: at every width a reset leaves a
consistent key, and every step from a state with a consistent key leads to one. -/
def Obligations.EveryStepKeepsTheKeyConsistentAtEveryWidth : Prop :=
  ∀ W, 13 ≤ W → (∀ strap : Strategy, (State.resetWith strap W).Inv) ∧
    ∀ s t : State W, s.Inv → stepAt s = .next t → t.Inv
end

