-- ==== Sys2Proof/Laws/State.lean ====
section
/-! SUPPORT. What each named update of the state does to each field, and the fields of reset. -/

namespace Sys2Proof.Machine

variable {W : Nat} (s : State W)

@[simp] theorem withCode_code (c : Code) : (s.withCode c).code = c := rfl
@[simp] theorem withCode_opa (c : Code) : (s.withCode c).opa = s.opa := rfl
@[simp] theorem withCode_opb (c : Code) : (s.withCode c).opb = s.opb := rfl
@[simp] theorem withCode_opc (c : Code) : (s.withCode c).opc = s.opc := rfl
@[simp] theorem withCode_resLo (c : Code) : (s.withCode c).resLo = s.resLo := rfl
@[simp] theorem withCode_resHi (c : Code) : (s.withCode c).resHi = s.resHi := rfl
@[simp] theorem withCode_strategy (c : Code) : (s.withCode c).strategy = s.strategy := rfl
@[simp] theorem withCode_key (c : Code) : (s.withCode c).key = s.key := rfl
@[simp] theorem withCode_pending (c : Code) : (s.withCode c).pending = s.pending := rfl
@[simp] theorem withCode_reply (c : Code) : (s.withCode c).reply = s.reply := rfl

@[simp] theorem withOpa_code (v : Word W) : (s.withOpa v).code = s.code := rfl
@[simp] theorem withOpa_opa (v : Word W) : (s.withOpa v).opa = v := rfl
@[simp] theorem withOpa_opb (v : Word W) : (s.withOpa v).opb = s.opb := rfl
@[simp] theorem withOpa_opc (v : Word W) : (s.withOpa v).opc = s.opc := rfl
@[simp] theorem withOpa_resLo (v : Word W) : (s.withOpa v).resLo = s.resLo := rfl
@[simp] theorem withOpa_resHi (v : Word W) : (s.withOpa v).resHi = s.resHi := rfl
@[simp] theorem withOpa_strategy (v : Word W) : (s.withOpa v).strategy = s.strategy := rfl
@[simp] theorem withOpa_key (v : Word W) : (s.withOpa v).key = s.key := rfl
@[simp] theorem withOpa_pending (v : Word W) : (s.withOpa v).pending = s.pending := rfl
@[simp] theorem withOpa_reply (v : Word W) : (s.withOpa v).reply = s.reply := rfl

@[simp] theorem withOpb_code (v : Word W) : (s.withOpb v).code = s.code := rfl
@[simp] theorem withOpb_opa (v : Word W) : (s.withOpb v).opa = s.opa := rfl
@[simp] theorem withOpb_opb (v : Word W) : (s.withOpb v).opb = v := rfl
@[simp] theorem withOpb_opc (v : Word W) : (s.withOpb v).opc = s.opc := rfl
@[simp] theorem withOpb_resLo (v : Word W) : (s.withOpb v).resLo = s.resLo := rfl
@[simp] theorem withOpb_resHi (v : Word W) : (s.withOpb v).resHi = s.resHi := rfl
@[simp] theorem withOpb_strategy (v : Word W) : (s.withOpb v).strategy = s.strategy := rfl
@[simp] theorem withOpb_key (v : Word W) : (s.withOpb v).key = s.key := rfl
@[simp] theorem withOpb_pending (v : Word W) : (s.withOpb v).pending = s.pending := rfl
@[simp] theorem withOpb_reply (v : Word W) : (s.withOpb v).reply = s.reply := rfl

@[simp] theorem withOpc_code (v : Word W) : (s.withOpc v).code = s.code := rfl
@[simp] theorem withOpc_opa (v : Word W) : (s.withOpc v).opa = s.opa := rfl
@[simp] theorem withOpc_opb (v : Word W) : (s.withOpc v).opb = s.opb := rfl
@[simp] theorem withOpc_opc (v : Word W) : (s.withOpc v).opc = v := rfl
@[simp] theorem withOpc_resLo (v : Word W) : (s.withOpc v).resLo = s.resLo := rfl
@[simp] theorem withOpc_resHi (v : Word W) : (s.withOpc v).resHi = s.resHi := rfl
@[simp] theorem withOpc_strategy (v : Word W) : (s.withOpc v).strategy = s.strategy := rfl
@[simp] theorem withOpc_key (v : Word W) : (s.withOpc v).key = s.key := rfl
@[simp] theorem withOpc_pending (v : Word W) : (s.withOpc v).pending = s.pending := rfl
@[simp] theorem withOpc_reply (v : Word W) : (s.withOpc v).reply = s.reply := rfl

@[simp] theorem withRes_code (lo hi : Word W) : (s.withRes lo hi).code = s.code := rfl
@[simp] theorem withRes_opa (lo hi : Word W) : (s.withRes lo hi).opa = s.opa := rfl
@[simp] theorem withRes_opb (lo hi : Word W) : (s.withRes lo hi).opb = s.opb := rfl
@[simp] theorem withRes_opc (lo hi : Word W) : (s.withRes lo hi).opc = s.opc := rfl
@[simp] theorem withRes_resLo (lo hi : Word W) : (s.withRes lo hi).resLo = lo := rfl
@[simp] theorem withRes_resHi (lo hi : Word W) : (s.withRes lo hi).resHi = hi := rfl
@[simp] theorem withRes_strategy (lo hi : Word W) : (s.withRes lo hi).strategy = s.strategy := rfl
@[simp] theorem withRes_key (lo hi : Word W) : (s.withRes lo hi).key = s.key := rfl
@[simp] theorem withRes_pending (lo hi : Word W) : (s.withRes lo hi).pending = s.pending := rfl
@[simp] theorem withRes_reply (lo hi : Word W) : (s.withRes lo hi).reply = s.reply := rfl

@[simp] theorem withKey_code (k : KeyState W) : (s.withKey k).code = s.code := rfl
@[simp] theorem withKey_opa (k : KeyState W) : (s.withKey k).opa = s.opa := rfl
@[simp] theorem withKey_opb (k : KeyState W) : (s.withKey k).opb = s.opb := rfl
@[simp] theorem withKey_opc (k : KeyState W) : (s.withKey k).opc = s.opc := rfl
@[simp] theorem withKey_resLo (k : KeyState W) : (s.withKey k).resLo = s.resLo := rfl
@[simp] theorem withKey_resHi (k : KeyState W) : (s.withKey k).resHi = s.resHi := rfl
@[simp] theorem withKey_strategy (k : KeyState W) : (s.withKey k).strategy = s.strategy := rfl
@[simp] theorem withKey_key (k : KeyState W) : (s.withKey k).key = k := rfl
@[simp] theorem withKey_pending (k : KeyState W) : (s.withKey k).pending = s.pending := rfl
@[simp] theorem withKey_reply (k : KeyState W) : (s.withKey k).reply = s.reply := rfl

@[simp] theorem withPending_code (l : List (HostAction W)) : (s.withPending l).code = s.code := rfl
@[simp] theorem withPending_opa (l : List (HostAction W)) : (s.withPending l).opa = s.opa := rfl
@[simp] theorem withPending_opb (l : List (HostAction W)) : (s.withPending l).opb = s.opb := rfl
@[simp] theorem withPending_opc (l : List (HostAction W)) : (s.withPending l).opc = s.opc := rfl
@[simp] theorem withPending_resLo (l : List (HostAction W)) : (s.withPending l).resLo = s.resLo := rfl
@[simp] theorem withPending_resHi (l : List (HostAction W)) : (s.withPending l).resHi = s.resHi := rfl
@[simp] theorem withPending_strategy (l : List (HostAction W)) : (s.withPending l).strategy = s.strategy := rfl
@[simp] theorem withPending_key (l : List (HostAction W)) : (s.withPending l).key = s.key := rfl
@[simp] theorem withPending_pending (l : List (HostAction W)) : (s.withPending l).pending = l := rfl
@[simp] theorem withPending_reply (l : List (HostAction W)) : (s.withPending l).reply = s.reply := rfl

@[simp] theorem withReply_code (r : Reply W) : (s.withReply r).code = s.code := rfl
@[simp] theorem withReply_opa (r : Reply W) : (s.withReply r).opa = s.opa := rfl
@[simp] theorem withReply_opb (r : Reply W) : (s.withReply r).opb = s.opb := rfl
@[simp] theorem withReply_opc (r : Reply W) : (s.withReply r).opc = s.opc := rfl
@[simp] theorem withReply_resLo (r : Reply W) : (s.withReply r).resLo = s.resLo := rfl
@[simp] theorem withReply_resHi (r : Reply W) : (s.withReply r).resHi = s.resHi := rfl
@[simp] theorem withReply_strategy (r : Reply W) : (s.withReply r).strategy = s.strategy := rfl
@[simp] theorem withReply_key (r : Reply W) : (s.withReply r).key = s.key := rfl
@[simp] theorem withReply_pending (r : Reply W) : (s.withReply r).pending = s.pending := rfl
@[simp] theorem withReply_reply (r : Reply W) : (s.withReply r).reply = r := rfl

variable (strategy : Strategy)

@[simp] theorem resetWith_code : (State.resetWith strategy W).code = .ok := rfl
@[simp] theorem resetWith_opa : (State.resetWith strategy W).opa = 0 := rfl
@[simp] theorem resetWith_opb : (State.resetWith strategy W).opb = 0 := rfl
@[simp] theorem resetWith_opc : (State.resetWith strategy W).opc = 0 := rfl
@[simp] theorem resetWith_resLo : (State.resetWith strategy W).resLo = 0 := rfl
@[simp] theorem resetWith_resHi : (State.resetWith strategy W).resHi = 0 := rfl
@[simp] theorem resetWith_strategy : (State.resetWith strategy W).strategy = strategy := rfl
@[simp] theorem resetWith_key : (State.resetWith strategy W).key = KeyState.reset strategy W := rfl
@[simp] theorem resetWith_pending : (State.resetWith strategy W).pending = [] := rfl
@[simp] theorem resetWith_reply : (State.resetWith strategy W).reply = .idle := rfl

/-- Writing what a field holds changes nothing: the update of the code. -/
@[simp] theorem withCode_self : s.withCode s.code = s := rfl

/-- The later update of one field wins. -/
@[simp] theorem withCode_withCode (c d : Code) : (s.withCode c).withCode d = s.withCode d := rfl

@[simp] theorem withPending_withPending (l m : List (HostAction W)) :
    (s.withPending l).withPending m = s.withPending m := rfl

/-- The reset event leaves nothing of the state before it but the host's queue. -/
theorem resetEvent_eq : resetEvent strategy s = { State.resetWith strategy W with pending := s.pending } := rfl

end Sys2Proof.Machine
end

