-- ==== Sys2Proof/Laws/Units.lean ====
section
/-! SUPPORT. What each unit computes, one lemma per unit, in the terms of the library: the laws every proof cites in
place of the loops. -/

namespace Sys2Proof.Machine

/-! ## The bounded scan -/

theorem scanLast_eq_some {test : Nat → Bool} {hi k x : Nat} (hk : k ≤ hi) :
    scanLast test hi k = some x ↔
      hi - k ≤ x ∧ x < hi ∧ test x = true ∧ ∀ y, hi - k ≤ y → y < x → test y = false := by
  induction k with
  | zero => simp [scanLast]; omega
  | succ k ih =>
    unfold scanLast
    split
    · rename_i hpass
      rw [Option.some.injEq]
      constructor
      · rintro rfl
        exact ⟨le_refl _, by omega, hpass, fun y h₁ h₂ => by omega⟩
      · rintro ⟨hle, _, _, hmin⟩
        by_contra hne
        have := hmin (hi - (k + 1)) (le_refl _) (by omega)
        simp [hpass] at this
    · rename_i hskip
      rw [ih (by omega)]
      have hskip' : test (hi - (k + 1)) = false := by simpa using hskip
      constructor
      · rintro ⟨hle, hlt, hx, hmin⟩
        refine ⟨by omega, hlt, hx, fun y hy hyx => ?_⟩
        rcases Nat.eq_or_lt_of_le hy with rfl | hy'
        · exact hskip'
        · exact hmin y (by omega) hyx
      · rintro ⟨hle, hlt, hx, hmin⟩
        refine ⟨?_, hlt, hx, fun y hy hyx => hmin y (by omega) hyx⟩
        rcases Nat.eq_or_lt_of_le hle with rfl | hlt'
        · simp [hskip'] at hx
        · omega

/-- The scan finds exactly the least value of its range that passes. -/
theorem firstIn_eq_some {lo hi x : Nat} {test : Nat → Bool} :
    firstIn lo hi test = some x ↔
      lo ≤ x ∧ x < hi ∧ test x = true ∧ ∀ y, lo ≤ y → y < x → test y = false := by
  rcases Nat.le_total lo hi with h | h
  · rw [firstIn, scanLast_eq_some (Nat.sub_le _ _), Nat.sub_sub_self h]
  · have : hi - lo = 0 := by omega
    simp only [firstIn, this, scanLast]
    constructor
    · simp
    · rintro ⟨_, _, _⟩; omega

/-- The scan finds nothing exactly when nothing in its range passes. -/
theorem firstIn_eq_none {lo hi : Nat} {test : Nat → Bool} :
    firstIn lo hi test = none ↔ ∀ y, lo ≤ y → y < hi → test y = false := by
  constructor
  · intro hnone
    by_contra hex
    push Not at hex
    have hex' : ∃ y, lo ≤ y ∧ y < hi ∧ test y = true := by
      obtain ⟨y, h₁, h₂, h₃⟩ := hex
      exact ⟨y, h₁, h₂, by simpa using h₃⟩
    classical
    have hfound : firstIn lo hi test = some (Nat.find hex') := by
      refine firstIn_eq_some.2 ⟨(Nat.find_spec hex').1, (Nat.find_spec hex').2.1, (Nat.find_spec hex').2.2, ?_⟩
      intro y hlo hlt
      have := Nat.find_min hex' hlt
      have hhi := (Nat.find_spec hex').2.1
      by_contra htest
      exact this ⟨hlo, by omega, by simpa using htest⟩
    simp [hnone] at hfound
  · intro hall
    cases hres : firstIn lo hi test with
    | none => rfl
    | some x =>
      obtain ⟨h₁, h₂, h₃, _⟩ := firstIn_eq_some.1 hres
      simp [hall x h₁ h₂] at h₃

/-! ## PRIME -/

theorem isqrtBits_spec {a : Nat} (k r : Nat) (hlo : r * r ≤ a) (hhi : a < (r + 2 ^ k) * (r + 2 ^ k)) :
    isqrtBits a k r * isqrtBits a k r ≤ a ∧ a < (isqrtBits a k r + 1) * (isqrtBits a k r + 1) := by
  induction k generalizing r with
  | zero => exact ⟨hlo, by simpa [isqrtBits] using hhi⟩
  | succ k ih =>
    unfold isqrtBits
    split
    · rename_i hle
      refine ih _ hle ?_
      have : r + 2 ^ k + 2 ^ k = r + 2 ^ (k + 1) := by rw [pow_succ]; omega
      rw [this]; exact hhi
    · rename_i hgt
      exact ih _ hlo (by omega)

/-- `isqrt` is the library's integer square root. -/
theorem isqrt_eq_sqrt (a : Nat) : isqrt a = Nat.sqrt a := by
  have hpow : a < 2 ^ (Nat.log2 a + 1) := Nat.lt_log2_self
  have hpos : 1 ≤ 2 ^ (Nat.log2 a + 1) := Nat.one_le_two_pow
  have hspec := isqrtBits_spec (a := a) (Nat.log2 a + 1) 0 (by simp) (by rw [Nat.zero_add]; nlinarith)
  exact Nat.eq_sqrt.2 ⟨hspec.1, hspec.2⟩

/-- Trial division by `[2, isqrt(num)]` decides primality. -/
theorem isPrime_eq_true {num : Nat} : isPrime num = true ↔ num.Prime := by
  unfold isPrime
  split
  · rename_i hle
    simp only [Bool.false_eq_true, false_iff]
    intro hp
    exact absurd hp.one_lt (by omega)
  · rename_i hgt
    rw [Option.isNone_iff_eq_none, firstIn_eq_none, Nat.prime_def_le_sqrt, isqrt_eq_sqrt]
    have hdvd : ∀ i, ((num % i == 0) = false) ↔ ¬ i ∣ num := by
      intro i
      rw [Nat.dvd_iff_mod_eq_zero]
      simp
    constructor
    · intro h
      exact ⟨by omega, fun m hm hsq => (hdvd m).1 (h m hm (by omega))⟩
    · rintro ⟨_, h⟩ y hy hlt
      exact (hdvd y).2 (h y hy (by omega))

theorem isPrime_eq_false {num : Nat} : isPrime num = false ↔ ¬ num.Prime := by
  rw [← isPrime_eq_true]; simp

/-! ## GCDC -/

theorem euclidLoop_eq_gcd (fuel a b : Nat) (h : b ≤ fuel) : euclidLoop fuel a b = Nat.gcd a b := by
  induction fuel generalizing a b with
  | zero =>
    obtain rfl : b = 0 := by omega
    simp [euclidLoop]
  | succ fuel ih =>
    unfold euclidLoop
    split
    · simp_all
    · rename_i hb
      have hlt := Nat.mod_lt a (Nat.pos_of_ne_zero hb)
      rw [ih b (a % b) (by omega), Nat.gcd_comm b, ← Nat.gcd_rec, Nat.gcd_comm]

/-- The Euclidean loop computes the greatest common divisor. -/
theorem euclid_eq_gcd (a b : Nat) : euclid a b = Nat.gcd a b := euclidLoop_eq_gcd b a b (le_refl b)

theorem coprime_eq_true {a b : Nat} : coprime a b = true ↔ Nat.Coprime a b := by
  rw [coprime, euclid_eq_gcd, beq_iff_eq]

theorem coprime_eq_false {a b : Nat} : coprime a b = false ↔ ¬ Nat.Coprime a b := by
  rw [← coprime_eq_true]; simp

/-! ## ESCAN -/

/-- What the scan returns is the least candidate coprime to `phi`. -/
theorem findExp_eq_some {phi x : Nat} :
    findExp phi = some x ↔
      2 ≤ x ∧ x < phi ∧ Nat.Coprime x phi ∧ ∀ y, 2 ≤ y → y < x → ¬ Nat.Coprime y phi := by
  rw [findExp, firstIn_eq_some, coprime_eq_true]
  simp only [coprime_eq_false]

/-- For `phi >= 3` the scan ends with a value, since `phi - 1` passes. -/
theorem exists_findExp {phi : Nat} (h : 3 ≤ phi) : ∃ x, findExp phi = some x := by
  cases hres : findExp phi with
  | some x => exact ⟨x, rfl⟩
  | none =>
    have := firstIn_eq_none.1 hres (phi - 1) (by omega) (by omega)
    rw [coprime_eq_false] at this
    exact absurd ((Nat.coprime_self_sub_left (by omega : 1 ≤ phi)).2 (by simp)) this

/-! ## INVS -/

theorem inverse_test {a m x : Nat} : (mulFull (a % m) x % m == 1) = true ↔ a * x % m = 1 := by
  rw [mulFull, beq_iff_eq, Nat.mod_mul_mod]

/-- What the search returns is the least inverse in `[1, m)`. -/
theorem modInv_eq_some {a m x : Nat} :
    modInv a m = some x ↔
      1 ≤ x ∧ x < m ∧ a * x % m = 1 ∧ ∀ y, 1 ≤ y → y < x → a * y % m ≠ 1 := by
  rw [modInv, firstIn_eq_some, inverse_test]
  refine and_congr_right fun _ => and_congr_right fun _ => and_congr_right fun _ => ?_
  refine forall_congr' fun y => forall_congr' fun _ => forall_congr' fun _ => ?_
  rw [ne_eq, ← inverse_test, Bool.not_eq_true]

/-- The search returns the sentinel exactly when no candidate is an inverse. -/
theorem modInv_eq_none {a m : Nat} : modInv a m = none ↔ ∀ y, 1 ≤ y → y < m → a * y % m ≠ 1 := by
  rw [modInv, firstIn_eq_none]
  refine forall_congr' fun y => forall_congr' fun _ => forall_congr' fun _ => ?_
  rw [ne_eq, ← inverse_test, Bool.not_eq_true]

theorem one_lt_of_inverse {a m x : Nat} (hx : x < m) (hax : a * x % m = 1) : 1 < m := by
  by_contra h
  obtain rfl : m = 1 := by omega
  omega

/-- Only a value coprime to the modulus has an inverse. -/
theorem coprime_of_inverse {a m x : Nat} (hx : x < m) (hax : a * x % m = 1) : Nat.Coprime a m := by
  have hm := one_lt_of_inverse hx hax
  exact Nat.coprime_of_mul_modEq_one x (by rw [Nat.ModEq, hax, Nat.mod_eq_of_lt hm])

/-- Two inverses below `m` are equal. -/
theorem inverse_unique {a m x y : Nat} (hx : x < m) (hy : y < m)
    (hax : a * x % m = 1) (hay : a * y % m = 1) : x = y := by
  have hcop : Nat.Coprime m a := (coprime_of_inverse hx hax).symm
  have hmod : a * x ≡ a * y [MOD m] := by rw [Nat.ModEq, hax, hay]
  have := Nat.ModEq.cancel_left_of_coprime hcop hmod
  rwa [Nat.ModEq, Nat.mod_eq_of_lt hx, Nat.mod_eq_of_lt hy] at this

/-- An inverse below the modulus is what the search returns: the certificate a proof about large operands gives. -/
theorem modInv_of_inverse {a m x : Nat} (hx : x < m) (hax : a * x % m = 1) : modInv a m = some x := by
  have hm := one_lt_of_inverse hx hax
  refine modInv_eq_some.2 ⟨?_, hx, hax, fun y _ hyx hay => ?_⟩
  · rcases Nat.eq_zero_or_pos x with rfl | h
    · simp at hax
    · exact h
  · exact absurd (inverse_unique (by omega) hx hay hax) (by omega)

/-- A value coprime to a modulus above 1 has an inverse below it. -/
theorem exists_inverse {a m : Nat} (hm : 2 ≤ m) (hcop : Nat.Coprime a m) : ∃ x, x < m ∧ a * x % m = 1 := by
  obtain ⟨x, hx⟩ := Nat.exists_mul_mod_eq_one_of_coprime hcop (by omega)
  exact ⟨x, hx.1, hx.2⟩

/-- The search fails exactly when `a` and `m` share a factor or the range is empty. -/
theorem modInv_eq_none_iff {a m : Nat} : modInv a m = none ↔ m ≤ 1 ∨ ¬ Nat.Coprime a m := by
  constructor
  · intro hnone
    by_contra hex
    push Not at hex
    obtain ⟨x, hx, hax⟩ := exists_inverse (by omega) hex.2
    simp [modInv_of_inverse hx hax] at hnone
  · intro h
    rw [modInv_eq_none]
    intro y hy hlt hay
    rcases h with h | h
    · omega
    · exact h (coprime_of_inverse hlt hay)

/-! ## MEXP -/

/-- With at least one step the loop computes the power's remainder, for every modulus. -/
theorem powerLoop_succ (base n k : Nat) : powerLoop base n (k + 1) = base ^ (k + 1) % n := by
  induction k with
  | zero => simp [powerLoop, mulFull]
  | succ k ih =>
    rw [powerLoop, ih, mulFull, Nat.mod_mul_mod, ← pow_succ]

theorem modExp_zero (base n : Nat) : modExp base 0 n = 1 := rfl

/-- `mod_exp` is the power's remainder for every exponent but 0. -/
theorem modExp_eq_pow {base exp n : Nat} (h : exp ≠ 0) : modExp base exp n = base ^ exp % n := by
  obtain ⟨k, rfl⟩ := Nat.exists_eq_succ_of_ne_zero h
  exact powerLoop_succ base n k

/-- Square-and-multiply, for evaluating large exponents: a labelled optimisation of R138, no part of the model. -/
def squareMultiply (n : Nat) : Nat → Nat → Nat → Nat
  | 0, _, _ => 1 % n
  | fuel + 1, exp, base =>
    if exp % 2 = 1 then squareMultiply n fuel (exp / 2) (base * base % n) * base % n
    else squareMultiply n fuel (exp / 2) (base * base % n)

theorem squareMultiply_eq_pow (n fuel exp base : Nat) (h : exp < 2 ^ fuel) :
    squareMultiply n fuel exp base = base ^ exp % n := by
  induction fuel generalizing exp base with
  | zero =>
    obtain rfl : exp = 0 := by simpa using h
    simp [squareMultiply]
  | succ fuel ih =>
    have hhalf : exp / 2 < 2 ^ fuel := by rw [pow_succ] at h; omega
    have hsq : (base * base % n) ^ (exp / 2) % n = base ^ (2 * (exp / 2)) % n := by
      rw [← Nat.pow_mod, ← pow_two, ← pow_mul]
    unfold squareMultiply
    split
    · rename_i hodd
      rw [ih _ _ hhalf, hsq, Nat.mod_mul_mod, ← pow_succ]
      congr 2; omega
    · rename_i heven
      rw [ih _ _ hhalf, hsq]
      congr 2; omega

/-- The naive loop and square-and-multiply agree from one step on. -/
theorem modExp_eq_squareMultiply {base exp n : Nat} (h : exp ≠ 0) :
    modExp base exp n = squareMultiply n (Nat.log2 exp + 1) exp base := by
  rw [modExp_eq_pow h, squareMultiply_eq_pow _ _ _ _ Nat.lt_log2_self]

theorem modExp_lt {base exp n : Nat} (h : exp ≠ 0) (hn : 1 ≤ n) : modExp base exp n < n := by
  rw [modExp_eq_pow h]; exact Nat.mod_lt _ hn

end Sys2Proof.Machine
end

