-- ==== Sys2Proof/Laws/Words.lean ====
section
/-! SUPPORT. The number of each word the operations build. -/

namespace Sys2Proof

namespace Word

variable {W : Nat}

theorem toNat_low (v : Nat) : (low v : Word W).toNat = v % 2 ^ W := BitVec.toNat_ofNat v W

theorem toNat_low_of_lt {v : Nat} (h : v < 2 ^ W) : (low v : Word W).toNat = v := by
  rw [toNat_low, Nat.mod_eq_of_lt h]

@[simp] theorem low_toNat (v : Word W) : low v.toNat = v :=
  BitVec.eq_of_toNat_eq (toNat_low_of_lt v.isLt)

/-- The bound on the width makes the spec's own numbers fit (R8). -/
theorem toNat_ofNat_of_lt (hW : 13 ≤ W) {n : Nat} (h : n < 2 ^ 13) : (BitVec.ofNat W n).toNat = n := by
  rw [BitVec.toNat_ofNat, Nat.mod_eq_of_lt (h.trans_le (Nat.pow_le_pow_right (by omega) hW))]

theorem toNat_lt (v : Word W) : v.toNat < 2 ^ W := v.isLt

/-- The two words of a product together are the product. -/
theorem toNat_low_high {a b : Nat} (ha : a < 2 ^ W) (hb : b < 2 ^ W) :
    (low (a * b) : Word W).toNat + 2 ^ W * (high (a * b) : Word W).toNat = a * b := by
  have hdiv : a * b / 2 ^ W < 2 ^ W := by
    apply Nat.div_lt_of_lt_mul
    exact Nat.mul_lt_mul'' ha hb
  rw [toNat_low, high, BitVec.toNat_ofNat, Nat.mod_eq_of_lt hdiv, Nat.mod_add_div]

theorem toNat_sent : (sent : Word W).toNat = 2 ^ W - 1 := BitVec.toNat_allOnes

/-- A value with one above it below `2^W` is not the sentinel (R36, R112). -/
theorem low_ne_sent {x m : Nat} (hx : x < m) (hm : m < 2 ^ W) : (low x : Word W) ≠ sent := by
  intro h
  have := congrArg BitVec.toNat h
  rw [toNat_low_of_lt (by omega), toNat_sent] at this
  omega

end Word

namespace Machine

variable {W : Nat}

theorem toNat_testWord (hW : 0 < W) (b : Bool) : (testWord b : Word W).toNat = if b then 1 else 0 := by
  have : 1 % 2 ^ W = 1 := Nat.mod_eq_of_lt (Nat.one_lt_two_pow (by omega))
  cases b <;> simp [testWord, this]

theorem testWord_eq_one (hW : 0 < W) {b : Bool} : (testWord b : Word W) = 1 ↔ b = true := by
  cases b <;> simp [testWord]; omega

theorem testWord_eq_zero (hW : 0 < W) {b : Bool} : (testWord b : Word W) = 0 ↔ b = false := by
  cases b <;> simp [testWord]; omega

/-- The word of a search below `m` is the sentinel exactly when nothing was found. -/
theorem inverseWord_eq_sent {a m : Nat} (hm : m < 2 ^ W) :
    (inverseWord (modInv a m) : Word W) = Word.sent ↔ modInv a m = none := by
  cases h : modInv a m with
  | none => simp [inverseWord]
  | some x =>
    have hx := (modInv_eq_some.1 h).2.1
    simpa [inverseWord] using Word.low_ne_sent hx hm

/-- The word of the exponentiation unit with a nonzero modulus and a nonzero exponent is the power's remainder. -/
theorem toNat_powerWord {base exp n : Word W} (hexp : exp ≠ 0) (hn : n ≠ 0) :
    (powerWord base exp n).toNat = base.toNat ^ exp.toNat % n.toNat := by
  have hexp' : exp.toNat ≠ 0 := fun h => hexp (BitVec.eq_of_toNat_eq (by simpa using h))
  have hn' : n.toNat ≠ 0 := fun h => hn (BitVec.eq_of_toNat_eq (by simpa using h))
  have hlt := modExp_lt (base := base.toNat) hexp' (Nat.pos_of_ne_zero hn')
  rw [powerWord, if_neg hn, Word.toNat_low_of_lt (hlt.trans n.isLt), modExp_eq_pow hexp']

theorem noInverse_eq_true {k : KeyState W} : k.noInverse = true ↔ k.d = Word.sent := by
  simp [KeyState.noInverse]

theorem noInverse_eq_false {k : KeyState W} : k.noInverse = false ↔ k.d ≠ Word.sent := by
  simp [KeyState.noInverse]

end Machine

end Sys2Proof
end

