-- ==== Sys2Proof/Laws/Commands.lean ====
section
/-! SUPPORT. What a command can do: one lemma per ending and per checked step of a command, and the inversion of
`execAt` that every frame rests on. -/

namespace Sys2Proof.Machine

variable {W : Nat}

/-! ## How a command ends -/

theorem fail_eq_next {c : Code} {s t : State W} : fail c s = .next t ↔ t = s.withCode c := by
  simp [fail, eq_comm]

theorem complete_eq_next {s t : State W} : complete s = .next t ↔ t = s.withCode .ok := by
  simp [complete, eq_comm]

theorem completeWith_eq_next {v : Word W} {s t : State W} :
    completeWith v s = .next t ↔ t = (s.withRes v 0).withCode .ok := complete_eq_next

theorem completeProduct_eq_next {v : Nat} {s t : State W} :
    completeProduct v s = .next t ↔ t = (s.withRes (Word.low v) (Word.high v)).withCode .ok := complete_eq_next

/-! ## The checked steps -/

/-- The scan with its rejection answers the scanned value, or rejects `phi <= 2` and nothing else. -/
theorem scanExponent_cases (phi : Nat) :
    (phi ≤ 2 ∧ scanExponent phi = .error .degeneratePhi) ∨
      (3 ≤ phi ∧ ∃ x, findExp phi = some x ∧ scanExponent phi = .ok x) := by
  rcases Nat.lt_or_ge 2 phi with h | h
  · obtain ⟨x, hx⟩ := exists_findExp h
    exact .inr ⟨h, x, hx, by rw [scanExponent, if_neg (by omega), hx]⟩
  · exact .inl ⟨h, if_pos h⟩

/-- Everything the sequencer can answer, its checks in order. -/
theorem deriveKeys_cases (w : Nat) (strategy : Strategy) (p q : Nat) :
    ((¬ p.Prime ∨ ¬ q.Prime) ∧ deriveKeys w strategy p q = .error .invalidKeyMaterial) ∨
    (p.Prime ∧ q.Prime ∧ 2 ^ w ≤ p * q ∧ deriveKeys w strategy p q = .error .overflow) ∨
    (p.Prime ∧ q.Prime ∧ p * q < 2 ^ w ∧ strategy = .searchSmallestCoprime ∧ (p - 1) * (q - 1) ≤ 2 ∧
      deriveKeys w strategy p q = .error .degeneratePhi) ∨
    (p.Prime ∧ q.Prime ∧ p * q < 2 ^ w ∧ ∃ e, publicExponent strategy ((p - 1) * (q - 1)) = .ok e ∧
      deriveKeys w strategy p q =
        .ok ⟨p * q, (p - 1) * (q - 1), e, modInv e ((p - 1) * (q - 1))⟩) := by
  by_cases hp : p.Prime
  · by_cases hq : q.Prime
    · have hchecks : (!isPrime p || !isPrime q) = false := by
        simp [isPrime_eq_true.2 hp, isPrime_eq_true.2 hq]
      right
      by_cases hov : 2 ^ w ≤ p * q
      · exact .inl ⟨hp, hq, hov, by simp [deriveKeys, hchecks, mulFull, hov]⟩
      · right
        have hfit : p * q < 2 ^ w := by omega
        cases strategy with
        | fixedExponent17 =>
          exact .inr ⟨hp, hq, hfit, 17, rfl, by simp [deriveKeys, hchecks, mulFull, hov, publicExponent]⟩
        | searchSmallestCoprime =>
          rcases scanExponent_cases ((p - 1) * (q - 1)) with ⟨hle, hscan⟩ | ⟨_, x, _, hscan⟩
          · exact .inl ⟨hp, hq, hfit, rfl, hle, by
              simp [deriveKeys, hchecks, mulFull, hov, publicExponent, hscan]⟩
          · exact .inr ⟨hp, hq, hfit, x, hscan, by
              simp [deriveKeys, hchecks, mulFull, hov, publicExponent, hscan]⟩
    · exact .inl ⟨.inr hq, by simp [deriveKeys, isPrime_eq_false.2 hq]⟩
  · exact .inl ⟨.inl hp, by simp [deriveKeys, isPrime_eq_false.2 hp]⟩

/-! ## The inversion of `execAt` -/

/-- What a command can do: fail with one of its codes, commit a key (DERIVE), or write the result registers. -/
inductive Ending (i : Instr) (s t : State W) : Prop where
  | failed (c : Code) (hne : c ≠ .ok) (hc : c ∈ possibleCodes i) (ht : t = s.withCode c)
  | derived (hi : i = .derive) (k : Derived)
      (hk : deriveKeys W s.strategy (opaNat s) (opbNat s) = .ok k)
      (ht : t = (s.withKey (keyWords s.opa s.opb k)).withCode .ok)
  | result (hi : writesResult i = true) (lo hi' : Word W) (hhi : i ≠ .mul → hi' = 0)
      (ht : t = (s.withRes lo hi').withCode .ok)

/-- A command always answers a next state, and that state is one of its endings. -/
theorem execAt_ending (i : Instr) (s : State W) : ∃ t, execAt i s = .next t ∧ Ending i s t := by
  cases i with
  | derive =>
    show ∃ t, execDerive s = .next t ∧ _
    unfold execDerive
    rcases deriveKeys_cases W s.strategy (opaNat s) (opbNat s) with
      ⟨_, h⟩ | ⟨_, _, _, h⟩ | ⟨_, _, _, _, _, h⟩ | ⟨_, _, _, e, _, h⟩ <;> rw [h]
    · exact ⟨_, rfl, .failed .invalidKeyMaterial (by decide) (by decide) rfl⟩
    · exact ⟨_, rfl, .failed .overflow (by decide) (by decide) rfl⟩
    · exact ⟨_, rfl, .failed .degeneratePhi (by decide) (by decide) rfl⟩
    · exact ⟨_, rfl, .derived rfl _ h rfl⟩
  | encrypt => exact ⟨_, rfl, .result rfl _ 0 (fun _ => rfl) rfl⟩
  | decrypt => exact ⟨_, rfl, .result rfl _ 0 (fun _ => rfl) rfl⟩
  | modexp =>
    show ∃ t, execModexp s = .next t ∧ _
    unfold execModexp
    split
    · exact ⟨_, rfl, .failed .zeroModulus (by decide) (by decide) rfl⟩
    · exact ⟨_, rfl, .result rfl _ 0 (fun _ => rfl) rfl⟩
  | modinv =>
    show ∃ t, execModinv s = .next t ∧ _
    unfold execModinv
    split
    · exact ⟨_, rfl, .failed .zeroModulus (by decide) (by decide) rfl⟩
    · exact ⟨_, rfl, .result rfl _ 0 (fun _ => rfl) rfl⟩
  | mul => exact ⟨_, rfl, .result rfl _ _ (fun h => absurd rfl h) rfl⟩
  | gcd => exact ⟨_, rfl, .result rfl _ 0 (fun _ => rfl) rfl⟩
  | coprime => exact ⟨_, rfl, .result rfl _ 0 (fun _ => rfl) rfl⟩
  | isprime => exact ⟨_, rfl, .result rfl _ 0 (fun _ => rfl) rfl⟩
  | findexp =>
    show ∃ t, execFindexp s = .next t ∧ _
    unfold execFindexp
    rcases scanExponent_cases (opaNat s) with ⟨_, h⟩ | ⟨_, x, _, h⟩ <;> rw [h]
    · exact ⟨_, rfl, .failed .degeneratePhi (by decide) (by decide) rfl⟩
    · exact ⟨_, rfl, .result rfl _ 0 (fun _ => rfl) rfl⟩

/-- The inversion: a next state of a command is one of its endings. -/
theorem ending_of_execAt {i : Instr} {s t : State W} (h : execAt i s = .next t) : Ending i s t := by
  obtain ⟨u, hu, hend⟩ := execAt_ending i s
  rw [h] at hu
  cases hu
  exact hend

/-! ## The reference instantiation -/

/-- `exec` is the command at the reference width. -/
theorem exec_eq_execAt (i : Instr) (s : State) : exec i s = execAt i s := by
  cases i <;> rfl

theorem exec_ending (i : Instr) (s : State) : ∃ t, exec i s = .next t ∧ Ending i s t :=
  exec_eq_execAt i s ▸ execAt_ending i s

theorem ending_of_exec {i : Instr} {s t : State} (h : exec i s = .next t) : Ending i s t :=
  ending_of_execAt (exec_eq_execAt i s ▸ h)

end Sys2Proof.Machine
end

