-- ==== Sys2Proof/Laws/Encoding.lean ====
section
/-! SUPPORT. The fields of a command word at every width, and what the decoder makes of a word. -/

namespace Sys2Proof

variable {W : Nat}

theorem zeroField_eq (v : Word W) : zeroField v = v.toNat / 16 := by
  simp [zeroField, BitVec.toNat_ushiftRight, Nat.shiftRight_eq_div_pow]

theorem toNat_opField (v : Word W) : (opField v).toNat = v.toNat % 16 := by
  simp [opField]

/-- A zero-extended opcode keeps its number (R72). -/
theorem toNat_zext (hW : 4 ≤ W) (op : BitVec 4) : (op.setWidth W).toNat = op.toNat := by
  rw [BitVec.toNat_setWidth, Nat.mod_eq_of_lt]
  exact op.isLt.trans_le (Nat.pow_le_pow_right (by omega) hW)

theorem toNat_encode (hW : 4 ≤ W) (i : Instr) : (encode i : Word W).toNat = (opcode i).toNat := toNat_zext hW _

/-- A word with no bit above bit 3 is decoded by the table alone (R71). -/
theorem decode_zext (hW : 4 ≤ W) (op : BitVec 4) : decode (op.setWidth W) = opcodeTable op := by
  have hzero : zeroField (op.setWidth W) = 0 := by
    rw [zeroField_eq, toNat_zext hW, Nat.div_eq_of_lt op.isLt]
  have hop : opField (op.setWidth W) = op := by
    apply BitVec.eq_of_toNat_eq
    rw [toNat_opField, toNat_zext hW, Nat.mod_eq_of_lt op.isLt]
  rw [decode, if_neg (by simp [hzero]), hop]

end Sys2Proof
end

