-- ==== Sys2Proof/Laws/PerInstr.lean ====
section
/-! SUPPORT. Statements about every command as syntax, one lemma per constructor. -/

namespace Sys2Proof.Laws

namespace Encoding

/-- At every width the word of a command is its opcode, a number from 1 to 10, and spells the command (spec
30_encoding.md rules R70 to R73). -/
def Statement (i : Instr) : Prop :=
  i.wf = true ∧ 1 ≤ (opcode i).toNat ∧ (opcode i).toNat ≤ 10 ∧
    ∀ W, 13 ≤ W → (encode i : Word W).toNat = (opcode i).toNat ∧ decode (encode i : Word W) = .command i

/-- The part of the statement that depends on the command is the table's row. -/
theorem statement_of_row {i : Instr} (hwf : i.wf = true) (hlo : 1 ≤ (opcode i).toNat) (hhi : (opcode i).toNat ≤ 10)
    (hrow : opcodeTable (opcode i) = .command i) : Statement i :=
  ⟨hwf, hlo, hhi, fun _ hW => ⟨toNat_encode (by omega) i, (decode_zext (by omega) _).trans hrow⟩⟩

theorem derive : Statement .derive := statement_of_row rfl (by decide) (by decide) rfl

theorem encrypt : Statement .encrypt := statement_of_row rfl (by decide) (by decide) rfl

theorem decrypt : Statement .decrypt := statement_of_row rfl (by decide) (by decide) rfl

theorem modexp : Statement .modexp := statement_of_row rfl (by decide) (by decide) rfl

theorem modinv : Statement .modinv := statement_of_row rfl (by decide) (by decide) rfl

theorem mul : Statement .mul := statement_of_row rfl (by decide) (by decide) rfl

theorem gcd : Statement .gcd := statement_of_row rfl (by decide) (by decide) rfl

theorem coprime : Statement .coprime := statement_of_row rfl (by decide) (by decide) rfl

theorem isprime : Statement .isprime := statement_of_row rfl (by decide) (by decide) rfl

theorem findexp : Statement .findexp := statement_of_row rfl (by decide) (by decide) rfl

end Encoding

end Sys2Proof.Laws
end

