-- ==== Sys2Proof/Laws/Port.lean ====
section
/-! SUPPORT. What a host action can do, and the inversion of the step. -/

namespace Sys2Proof.Machine

variable {W : Nat}

@[simp] theorem slot_ofIndex_index (sl : Slot) : Slot.ofIndex sl.index = sl := by
  cases sl <;> rfl

@[simp] theorem slot_index_ofIndex (idx : BitVec 4) : (Slot.ofIndex idx).index = idx := by
  revert idx; decide

/-- A write to `CMD`: an illegal word fails, and a command ends as its command does. -/
theorem runWord_cases (v : Word W) (s : State W) :
    (∃ why, decode v = .illegal why ∧ runWord v s = .next (s.withCode .illegalCmd)) ∨
      (∃ i t, decode v = .command i ∧ runWord v s = .next t ∧ execAt i s = .next t ∧ Ending i s t) := by
  cases h : decode v with
  | illegal why => exact .inl ⟨why, rfl, by simp [runWord, h, fail]⟩
  | command i =>
    obtain ⟨t, ht, hend⟩ := execAt_ending i s
    exact .inr ⟨i, t, rfl, by simp [runWord, h, ht], ht, hend⟩

/-- The step with an action waiting is that action on the state without it. -/
theorem stepAt_of_pending {s : State W} {a : HostAction W} {rest : List (HostAction W)} (h : s.pending = a :: rest) :
    stepAt s = perform a (s.withPending rest) := by
  simp [stepAt, h]

theorem stepAt_of_idle {s : State W} (h : s.pending = []) : stepAt s = .next (s.withReply .idle) := by
  simp [stepAt, h]

/-- What one host action can do to a state. -/
inductive Performed (s t : State W) : HostAction W → Prop where
  | read (idx : BitVec 4) (ht : t = s.withReply (.data (hostRead idx s))) : Performed s t (.read idx)
  | stored (idx : BitVec 4) (v : Word W)
      (ht : t = (s.withReply .ack).withOpa v ∨ t = (s.withReply .ack).withOpb v ∨ t = (s.withReply .ack).withOpc v) :
      Performed s t (.write idx v)
  | ignored (idx : BitVec 4) (v : Word W) (ht : t = s.withReply .ack) : Performed s t (.write idx v)
  | illegal (idx : BitVec 4) (v : Word W) (why : IllegalWord) (hidx : Slot.ofIndex idx = .cmd)
      (hv : decode v = .illegal why) (ht : t = (s.withReply .ack).withCode .illegalCmd) : Performed s t (.write idx v)
  | command (idx : BitVec 4) (v : Word W) (i : Instr) (hidx : Slot.ofIndex idx = .cmd) (hv : decode v = .command i)
      (hexec : execAt i (s.withReply .ack) = .next t) (hend : Ending i (s.withReply .ack) t) : Performed s t (.write idx v)
  | reset (strategy : Strategy) (ht : t = resetEvent strategy s) : Performed s t (.reset strategy)

/-- A host action always answers a next state, and does one of those things. -/
theorem perform_performed (a : HostAction W) (s : State W) : ∃ t, perform a s = .next t ∧ Performed s t a := by
  cases a with
  | read idx => exact ⟨_, rfl, .read idx rfl⟩
  | reset strategy => exact ⟨_, rfl, .reset strategy rfl⟩
  | write idx v =>
    show ∃ t, writeSlot v (s.withReply .ack) (Slot.ofIndex idx) = .next t ∧ _
    cases hidx : Slot.ofIndex idx with
    | cmd =>
      rcases runWord_cases v (s.withReply .ack) with ⟨why, hv, hrun⟩ | ⟨i, t, hv, hrun, hexec, hend⟩
      · exact ⟨_, hrun, .illegal idx v why hidx hv rfl⟩
      · exact ⟨t, hrun, .command idx v i hidx hv hexec hend⟩
    | opa => exact ⟨_, rfl, .stored idx v (.inl rfl)⟩
    | opb => exact ⟨_, rfl, .stored idx v (.inr (.inl rfl))⟩
    | opc => exact ⟨_, rfl, .stored idx v (.inr (.inr rfl))⟩
    | status | resLo | resHi | cfg | keyP | keyQ | keyN | keyPhi | keyE | keyD | reserved14 | reserved15 =>
      exact ⟨_, rfl, .ignored idx v rfl⟩

/-- The inversion of the step: the block was idle, or the oldest action was performed. -/
theorem stepAt_inversion {s t : State W} (h : stepAt s = .next t) :
    (s.pending = [] ∧ t = s.withReply .idle) ∨
      (∃ a rest, s.pending = a :: rest ∧ Performed (s.withPending rest) t a) := by
  cases hp : s.pending with
  | nil =>
    rw [stepAt_of_idle hp] at h
    cases h
    exact .inl ⟨rfl, rfl⟩
  | cons a rest =>
    rw [stepAt_of_pending hp] at h
    obtain ⟨u, hu, hperf⟩ := perform_performed a (s.withPending rest)
    rw [h] at hu
    cases hu
    exact .inr ⟨a, rest, rfl, hperf⟩

/-! ## The reference instantiation -/

theorem step_eq_stepAt (s : State) : step s = stepAt s := rfl

theorem step_of_pending {s : State} {a : HostAction} {rest : List HostAction} (h : s.pending = a :: rest) :
    step s = perform a (s.withPending rest) := stepAt_of_pending h

theorem step_of_idle {s : State} (h : s.pending = []) : step s = .next (s.withReply .idle) := stepAt_of_idle h

theorem step_inversion {s t : State} (h : step s = .next t) :
    (s.pending = [] ∧ t = s.withReply .idle) ∨
      (∃ a rest, s.pending = a :: rest ∧ Performed (s.withPending rest) t a) := stepAt_inversion h

end Sys2Proof.Machine
end

