-- ==== Sys2Proof/Tests/Slice0.lean ====
section
/-! SUPPORT. Tests against the spec's own words and vectors (30_encoding.md R72, R73; 95_test_vectors.md), the refusals
of the well-formedness checks, and a witness for the hypotheses of each statement in Certificates/Slice0. -/

namespace Sys2Proof.Tests

open Sys2Proof.Machine

/-! ## Well-formedness refuses -/

theorem test_wf_refuses_strap_2 : (Statement.reset 2).wf = false := by decide

theorem test_wf_refuses_wide_value : (Statement.wr .opa (2 ^ 32)).wf = false := by decide

theorem test_wf_refuses_reserved_write : (Statement.wr .reserved14 0).wf = false := by decide

theorem test_wf_refuses_reserved_read : (Statement.rd .reserved15).wf = false := by decide

theorem test_wf_refuses_wide_operand : (Pseudo.modexp 5 1 (2 ^ 32)).wf = false := by decide

/-! ## Decoding, each word written out bit by bit from R70 and R72 -/

theorem test_decode_derive : decode (0b00000000000000000000000000000001 : Word) = .command .derive := by decide

theorem test_decode_encrypt : decode (0b00000000000000000000000000000010 : Word) = .command .encrypt := by decide

theorem test_decode_decrypt : decode (0b00000000000000000000000000000011 : Word) = .command .decrypt := by decide

theorem test_decode_modexp : decode (0b00000000000000000000000000000100 : Word) = .command .modexp := by decide

theorem test_decode_modinv : decode (0b00000000000000000000000000000101 : Word) = .command .modinv := by decide

theorem test_decode_mul : decode (0b00000000000000000000000000000110 : Word) = .command .mul := by decide

theorem test_decode_gcd : decode (0b00000000000000000000000000000111 : Word) = .command .gcd := by decide

theorem test_decode_coprime : decode (0b00000000000000000000000000001000 : Word) = .command .coprime := by decide

theorem test_decode_isprime : decode (0b00000000000000000000000000001001 : Word) = .command .isprime := by decide

theorem test_decode_findexp : decode (0b00000000000000000000000000001010 : Word) = .command .findexp := by decide

/-- V-ILL: the illegal opcodes. -/
theorem test_decode_refuses_opcodes :
    ([0x0, 0xB, 0xC, 0xD, 0xE, 0xF] : List Word).all (fun v => decode v == .illegal .unassignedOpcode) = true := by
  decide

/-- V-ILL: a good low nibble under a set upper bit. -/
theorem test_decode_refuses_upper_bits :
    ([0x12, 0x16, 0x80000001, 0xFFFFFFFF] : List Word).all (fun v => decode v == .illegal .upperBitsSet) = true := by
  decide

/-! ## One step on a small state -/

/-- Reset under a strap, with three operands. -/
def ready (strap : Strategy) (a b c : Word) : State := { State.resetWith strap with opa := a, opb := b, opc := c }

/-- The state a result holds; every result of this machine holds one. -/
def stateOf {W : Nat} (s : State W) : Result W → State W
  | .next t => t
  | .fault r => nomatch r
  | .refused _ => s

/-- The state after a command. -/
def after (i : Instr) (s : State) : State := stateOf s (exec i s)

/-- V-MUL: the largest product. -/
theorem test_mul_largest :
    let t := after .mul (ready .fixedExponent17 0xFFFFFFFF 0xFFFFFFFF 0)
    t.resHi = 0xFFFFFFFE ∧ t.resLo = 1 := by decide

/-- V-MUL: a product of two unlike words. -/
theorem test_mul_both_words :
    let t := after .mul (ready .fixedExponent17 123456789 987654321 0)
    t.resHi = 0x01B13114 ∧ t.resLo = 0xFBFF5385 := by decide

/-- V-PRIME: the square of a prime, whose only divisor is the bound of the range. -/
theorem test_isprime_square : (after .isprime (ready .fixedExponent17 121 0 0)).resLo = 0 := by decide +kernel

/-- V-PRIME: a prime of 16 bits. -/
theorem test_isprime_65521 : (after .isprime (ready .fixedExponent17 65521 0 0)).resLo = 1 := by decide +kernel

/-- V-GCD. -/
theorem test_gcd_1071_462 : (after .gcd (ready .fixedExponent17 1071 462 0)).resLo = 21 := by decide +kernel

/-- V-GCD: a zero second operand. -/
theorem test_gcd_zero : (after .gcd (ready .fixedExponent17 5 0 0)).resLo = 5 := by decide +kernel

/-- V-GCD: coprime to the reset `phi`. -/
theorem test_coprime_17_3120 : (after .coprime (ready .fixedExponent17 17 3120 0)).resLo = 1 := by decide +kernel

/-- V-GCD: `gcd(0, 0) = 0`, not 1. -/
theorem test_coprime_zeros : (after .coprime (ready .fixedExponent17 0 0 0)).resLo = 0 := by decide +kernel

/-- V-FINDEXP: the smallest operand that is scanned. -/
theorem test_findexp_3 : (after .findexp (ready .fixedExponent17 3 0 0)).resLo = 2 := by decide +kernel

/-- V-FINDEXP: 2 is degenerate, under either strategy. -/
theorem test_findexp_2 : (after .findexp (ready .fixedExponent17 2 0 0)).code = .degeneratePhi := by decide +kernel

/-- V-MODINV: the operand is reduced first. -/
theorem test_modinv_3137_3120 : (after .modinv (ready .fixedExponent17 3137 3120 0)).resLo = 2753 := by decide +kernel

/-- V-MODINV, E7: no inverse gives the sentinel and OK. -/
theorem test_modinv_4_8 :
    let t := after .modinv (ready .fixedExponent17 4 8 0)
    t.resLo = 0xFFFFFFFF ∧ t.code = .ok := by decide +kernel

/-- V-MODEXP: no step leaves the initial 1, also for modulus 1. -/
theorem test_modexp_5_0_1 : (after .modexp (ready .fixedExponent17 5 0 1)).resLo = 1 := by decide +kernel

/-- V-MODEXP: the largest intermediate products. -/
theorem test_modexp_largest :
    (after .modexp (ready .fixedExponent17 0xFFFFFFFF 3 0xFFFFFFFE)).resLo = 1 := by decide +kernel

/-- V-ENC, strategy 0. -/
theorem test_encrypt_65 : (after .encrypt (ready .fixedExponent17 65 0 0)).resLo = 2790 := by decide +kernel

/-- V-ENC, strategy 1: an operand above the modulus is reduced. -/
theorem test_encrypt_4000 : (after .encrypt (ready .searchSmallestCoprime 4000 0 0)).resLo = 2606 := by decide +kernel

/-- V-DEC, strategy 0. -/
theorem test_decrypt_2790 : (after .decrypt (ready .fixedExponent17 2790 0 0)).resLo = 65 := by decide +kernel

/-- V-DEC, strategy 1. -/
theorem test_decrypt_1317 : (after .decrypt (ready .searchSmallestCoprime 1317 0 0)).resLo = 65 := by decide +kernel

/-- R131: the pair whose `phi` is a multiple of 17, under the fixed strategy; `STATUS` reads 0x10 (P3). -/
theorem test_derive_3_103 :
    let t := after .derive (ready .fixedExponent17 3 103 0)
    t.key = { p := 3, q := 103, n := 309, phi := 204, e := 17, d := 0xFFFFFFFF } ∧ statusWord t = 0x10 := by
  decide +kernel

/-- V-D5: primality is checked before the degenerate `phi`. -/
theorem test_derive_order : (after .derive (ready .searchSmallestCoprime 4 2 0)).code = .invalidKeyMaterial := by
  decide +kernel

/-- V-ILL, P4: `WR CMD, 0x12` does not run ENCRYPT. -/
theorem test_step_illegal :
    let t := stateOf State.reset (step (State.reset.withFetchWord 32 0x12))
    statusWord t = 1 ∧ t.resLo = 0 := by decide

/-- R191: `GCD 7, 3120` makes 5 replacements, `MODINV 4, 8` tests 7 candidates and `FINDEXP 3120` tests 6. -/
theorem test_counts : euclidSteps 7 3120 = 5 ∧ modInvTests 4 8 = 7 ∧ findExpTests 3120 = 6 := by decide +kernel

/-- R191: a decryption under the reset key makes 2753 steps. -/
theorem test_decrypt_steps : decryptSteps State.reset = some 2753 := by decide +kernel

/-! ## Other widths: the least one and 64 bits -/

/-- R91 at W = 13: 8191 * 8191 = 67092481 = 8190 * 2^13 + 1. -/
theorem test_mul_13_bits :
    let t := stateOf (State.resetWith .fixedExponent17 _) (execAt .mul { State.resetWith .fixedExponent17 13 with opa := 8191, opb := 8191 })
    t.resHi = 8190 ∧ t.resLo = 1 := by decide

/-- R123 at W = 13: 89 * 97 = 8633 does not fit. -/
theorem test_derive_overflow_13_bits :
    (stateOf (State.resetWith .fixedExponent17 _) (execAt .derive
      { State.resetWith .fixedExponent17 13 with opa := 89, opb := 97 })).code = .overflow := by decide +kernel

/-- R28, R110, R143 at W = 64: the sentinel has 64 ones, and `STATUS` shows it in bit 4. -/
theorem test_derive_3_103_64_bits :
    let t := stateOf (State.resetWith .fixedExponent17 _) (execAt .derive
      { State.resetWith .fixedExponent17 64 with opa := 3, opb := 103 })
    t.key.d = 0xFFFFFFFFFFFFFFFF ∧ statusWord t = 0x10 := by decide +kernel

/-- R71 at W = 64: a set bit above bit 31 makes a word illegal. -/
theorem test_decode_64_bits : decode (0x100000006 : Word 64) = .illegal .upperBitsSet ∧
    decode (0x6 : Word 64) = .command .mul := by decide

/-! ## Witnesses for the hypotheses of the statements -/

/-- A reset state with one host action waiting. -/
def waiting (a : HostAction) : State := { State.reset with pending := [a] }

theorem witness_notation : (Statement.wr .opa 65).wf = true ∧ (Statement.reset 1).wf = true ∧
    (HostAction.write 2 65 : HostAction).toPort = some { we := true, idx := 2, wdata := 65 } ∧
    (HostAction.read 15 : HostAction).toPort = some { we := false, idx := 15, wdata := 0 } := by decide

theorem witness_pseudo : (Pseudo.derive 61 53).wf = true ∧
    ({ State.reset with pending := [.write 2 61, .write 3 53, .write 0 1] } : State).pending =
      (Pseudo.derive 61 53).expand.map Statement.toAction ++ [] := by decide

theorem witness_step : (waiting (.write 0 6)).pending = .write 0 6 :: [] ∧ decode (6 : Word) = .command .mul ∧
    decodeTableWord 32 6 = some .mul := by decide

theorem witness_illegal : (∀ v : Word, (waiting (.write 0 v)).pending = .write 0 v :: []) ∧
    (16 : Word).toNat / 16 ≠ 0 ∧ (0 : Word).toNat % 16 = 0 ∧ 11 ≤ (11 : Word).toNat % 16 ∧
    11 ≤ (15 : Word).toNat % 16 :=
  ⟨fun _ => rfl, by decide, by decide, by decide, by decide⟩

theorem witness_reset_event : ∀ strap ∈ [Strategy.fixedExponent17, .searchSmallestCoprime],
    (waiting (.reset strap)).pending = .reset strap :: [] := by decide

theorem witness_reset_trace : ∃ t u v, exec .mul State.reset = .next t ∧
    step { State.reset with pending := .reset .fixedExponent17 :: [] } = .next u ∧
    step { t with pending := .reset .fixedExponent17 :: [] } = .next v := ⟨_, _, _, rfl, rfl, rfl⟩

theorem witness_reset_key : (ready .fixedExponent17 61 53 0).opa = 61 ∧ (ready .fixedExponent17 61 53 0).opb = 53 := by
  decide

theorem witness_read : ({ State.reset with pending := [.read 1, .read 1] } : State).pending = .read 1 :: [.read 1] ∧
    (waiting (.read 0)).pending = .read 0 :: [] ∧ (waiting (.read 13)).pending = .read 13 :: [] := by decide

theorem witness_operand_write : ∀ idx ∈ ([2, 3, 4] : List (BitVec 4)),
    (waiting (.write idx 7)).pending = .write idx 7 :: [] := by decide

theorem witness_read_only : ∀ idx ∈ ([1, 5, 13] : List (BitVec 4)),
    (waiting (.write idx 7)).pending = .write idx 7 :: [] ∧ idx.toNat ∈ [1, 5, 6, 7, 8, 9, 10, 11, 12, 13] := by decide

theorem witness_reserved : ∀ idx ∈ ([14, 15] : List (BitVec 4)), (idx.toNat = 14 ∨ idx.toNat = 15) ∧
    (waiting (.write idx 7)).pending = .write idx 7 :: [] ∧ (waiting (.read idx)).pending = .read idx :: [] := by decide

theorem witness_idle : State.reset.pending = [] := by decide

theorem witness_cfg_change : ∃ t, step (waiting (.reset .searchSmallestCoprime)) = .next t ∧
    t.strategy ≠ (waiting (.reset .searchSmallestCoprime)).strategy ∧
    (waiting (.reset .searchSmallestCoprime)).pending = .reset .searchSmallestCoprime :: [] := ⟨_, rfl, by decide⟩

theorem witness_codes : (after .derive (ready .fixedExponent17 4 53 0)).code = .invalidKeyMaterial ∧
    (after .derive (ready .searchSmallestCoprime 2 3 0)).code = .degeneratePhi ∧
    (after .findexp (ready .fixedExponent17 2 0 0)).code = .degeneratePhi ∧
    (after .modexp (ready .fixedExponent17 7 3 0)).code = .zeroModulus ∧
    (after .modinv (ready .fixedExponent17 7 0 0)).code = .zeroModulus ∧
    (after .mul (ready .fixedExponent17 7 3 0)).code = .ok := by decide +kernel

theorem witness_failed_write : ∃ t, hostWrite 0 0 State.reset = .next t ∧ t.code ≠ .ok := ⟨_, rfl, by decide⟩

theorem witness_overflow : (65537 : Nat).Prime ∧ 2 ^ Config.W ≤ 65537 * 65537 ∧
    (ready .searchSmallestCoprime 65537 65537 0).opa.toNat = 65537 ∧
    (ready .searchSmallestCoprime 65537 65537 0).opb.toNat = 65537 := by
  exact ⟨by norm_num, by decide, by decide, by decide⟩

theorem witness_agree : ∀ i : Instr, AgreeOnReads State.reset State.reset i ∧ ∃ t, exec i State.reset = .next t := by
  intro i
  obtain ⟨t, h, _⟩ := exec_ending i State.reset
  refine ⟨?_, t, h⟩
  cases i <;> simp [AgreeOnReads]

theorem witness_key_change_derive :
    let s := { ready .fixedExponent17 3 5 0 with pending := [.write 0 1] }
    (stateOf s (step s)).key ≠ s.key := by decide +kernel

theorem witness_key_change_reset :
    let s := waiting (.reset .searchSmallestCoprime)
    (stateOf s (step s)).key ≠ s.key := by decide +kernel

theorem witness_findexp : (ready .fixedExponent17 2 0 0).opa.toNat ≤ 2 ∧
    3 ≤ (ready .fixedExponent17 3 0 0).opa.toNat := by decide

theorem witness_modinv : (ready .fixedExponent17 17 0 0).opb.toNat = 0 ∧
    1 ≤ (ready .fixedExponent17 17 1 0).opb.toNat := by decide

theorem witness_modexp : (ready .fixedExponent17 7 3 0).opc.toNat = 0 ∧
    1 ≤ (ready .fixedExponent17 5 0 1).opc.toNat ∧ (ready .fixedExponent17 5 0 1).opb.toNat = 0 ∧
    1 ≤ (ready .fixedExponent17 5 1 1).opb.toNat := by decide

theorem witness_encrypt_bounds : 4 ≤ State.reset.key.n.toNat ∧ 2 ≤ State.reset.key.e.toNat ∧
    (ready .fixedExponent17 3232 0 0).opa.toNat + 1 = State.reset.key.n.toNat ∧ State.reset.key.e.toNat % 2 = 1 := by
  decide

theorem witness_encrypt_even : ∃ s : State, 4 ≤ s.key.n.toNat ∧ 2 ≤ s.key.e.toNat ∧ s.opa.toNat + 1 = s.key.n.toNat ∧
    s.key.e.toNat % 2 = 0 :=
  ⟨{ State.reset with opa := 3, key := { State.reset.key with n := 4, e := 2 } }, by decide⟩

theorem witness_decrypt : State.reset.key.d ≠ Word.sent ∧ 1 ≤ State.reset.key.n.toNat ∧
    ∃ s : State, s.key.d = Word.sent :=
  ⟨by decide, by decide, { State.reset with key := { State.reset.key with d := Word.sent } }, rfl⟩

theorem witness_equal_primes : ∃ s : State, s.key = { p := 3, q := 3, n := 9, phi := 4, e := 3, d := 3 } ∧ s.opa = 2 :=
  ⟨{ State.reset with opa := 2, key := { p := 3, q := 3, n := 9, phi := 4, e := 3, d := 3 } }, rfl, rfl⟩

/-- The key of reset under strap 0 is consistent: the premise of the round trip and of the step invariant. -/
theorem witness_consistent_key : State.reset.Inv ∧ State.reset.key.d ≠ Word.sent ∧
    State.reset.key.p ≠ State.reset.key.q ∧ ∃ t, step State.reset = .next t :=
  ⟨⟨by norm_num [State.reset, State.resetWith, KeyState.reset, Word.low],
    by norm_num [State.reset, State.resetWith, KeyState.reset, Word.low],
    by decide, by decide, by decide, by decide, by decide, by decide, by decide, by decide, by decide⟩,
    by decide, by decide, _, rfl⟩

theorem witness_reachable : Reachable State.reset := .reset .fixedExponent17

theorem witness_derive_fails : ¬ (4 : Nat).Prime ∧ (ready .fixedExponent17 4 53 0).opa.toNat = 4 ∧
    (2 : Nat).Prime ∧ (3 : Nat).Prime ∧ (ready .searchSmallestCoprime 2 3 0).opa.toNat = 2 ∧
    (ready .searchSmallestCoprime 2 3 0).opb.toNat = 3 ∧ 2 * 3 < 2 ^ Config.W ∧ (2 - 1) * (3 - 1) ≤ 2 := by
  exact ⟨by norm_num, by decide, by norm_num, by norm_num, by decide, by decide, by decide, by decide⟩

theorem witness_derive_commits : ∀ strap, (11 : Nat).Prime ∧ (13 : Nat).Prime ∧ (ready strap 11 13 0).opa.toNat = 11 ∧
    (ready strap 11 13 0).opb.toNat = 13 ∧ (ready strap 11 13 0).strategy = strap ∧ 11 * 13 < 2 ^ Config.W ∧
    3 ≤ (11 - 1) * (13 - 1) := by
  intro strap
  exact ⟨by norm_num, by norm_num, rfl, rfl, rfl, by decide, by decide⟩

theorem witness_derived_width : ∃ k, deriveKeys 13 .searchSmallestCoprime 61 53 = .ok k :=
  ⟨⟨3233, 3120, 7, some 1783⟩, by decide +kernel⟩

theorem witness_counts : modInv 17 8 = some 1 ∧ modInv 4 8 = none ∧ findExp 3 = some 2 := by decide +kernel

/-- A reset state at the least width with one host action waiting. -/
def waiting13 (a : HostAction 13) : State 13 := { State.resetWith .fixedExponent17 13 with pending := [a] }

theorem witness_width_command : (13 : Nat) ≤ 13 ∧ (waiting13 (.write 0 6)).pending = .write 0 6 :: [] ∧
    decode (6 : Word 13) = .command .mul ∧ (waiting13 (.write 0 8191)).pending = .write 0 8191 :: [] ∧
    (8191 : Word 13).toNat / 16 ≠ 0 ∧
    ∃ t, stepAt (waiting13 (.write 0 8191)) = .next t ∧ t.code ≠ .ok :=
  ⟨by decide, by decide, by decide, by decide, by decide, _, rfl, by decide⟩

theorem witness_width_reset : (waiting13 (.reset .searchSmallestCoprime)).pending = .reset .searchSmallestCoprime :: [] := by
  decide

theorem witness_width_units : ∃ s z : State 13, 3 ≤ s.opa.toNat ∧ 1 ≤ s.opb.toNat ∧ 1 ≤ s.opc.toNat ∧
    z.opa.toNat ≤ 2 ∧ z.opb.toNat = 0 ∧ z.opc.toNat = 0 :=
  ⟨{ State.resetWith .fixedExponent17 13 with opa := 8191, opb := 1, opc := 1 }, State.resetWith .fixedExponent17 13,
    by decide⟩

/-- The reset key at the least width is consistent: the premise of the statements at every width. -/
theorem witness_width_key : (State.resetWith .fixedExponent17 13).Inv ∧
    (State.resetWith .fixedExponent17 13).key.d ≠ Word.sent ∧
    (State.resetWith .fixedExponent17 13).key.p ≠ (State.resetWith .fixedExponent17 13).key.q ∧
    (∃ t, stepAt (State.resetWith .fixedExponent17 13) = .next t) ∧ ∃ s : State 13, s.key.d = Word.sent :=
  ⟨⟨by norm_num [State.resetWith, KeyState.reset, Word.low], by norm_num [State.resetWith, KeyState.reset, Word.low],
    by decide, by decide, by decide, by decide, by decide, by decide, by decide, by decide, by decide⟩,
    by decide, by decide, ⟨_, rfl⟩,
    { State.resetWith .fixedExponent17 13 with key := { KeyState.reset .fixedExponent17 13 with d := Word.sent } }, rfl⟩

theorem witness_width_derive : (61 : Nat).Prime ∧ (53 : Nat).Prime ∧ (89 : Nat).Prime ∧ (97 : Nat).Prime ∧
    ¬ (4 : Nat).Prime ∧ 61 * 53 < 2 ^ 13 ∧ 2 ^ 13 ≤ 89 * 97 ∧ (2 - 1) * (3 - 1) ≤ 2 ∧
    (97 : Word 13).toNat = 97 ∧ (State.resetWith .searchSmallestCoprime 13).strategy = .searchSmallestCoprime := by
  exact ⟨by norm_num, by norm_num, by norm_num, by norm_num, by norm_num, by decide, by decide, by decide, by decide,
    rfl⟩

end Sys2Proof.Tests
end

/-! PROOF. The decoder at every width: which words spell a command and which spell none (spec 30_encoding.md rules
R71 to R73). -/

namespace Sys2Proof

variable {W : Nat}

/-- The rows of the table are the commands' opcodes and nothing else (R72). -/
theorem opcodeTable_eq_command {op : BitVec 4} {i : Instr} : opcodeTable op = .command i ↔ op = opcode i := by
  cases i <;> revert op <;> decide

/-- The opcodes without a row (R73). -/
theorem opcodeTable_unassigned {op : BitVec 4} :
    op.toNat = 0 ∨ 11 ≤ op.toNat → opcodeTable op = .illegal .unassignedOpcode := by
  revert op; decide

/-- The command words are exactly the words the encoder gives (R78). -/
theorem decode_eq_command (hW : 4 ≤ W) {v : Word W} {i : Instr} : decode v = .command i ↔ v = encode i := by
  constructor
  · intro h
    unfold decode at h
    split at h
    · cases h
    · rename_i hzero
      have hop : opField v = opcode i := opcodeTable_eq_command.1 h
      apply BitVec.eq_of_toNat_eq
      rw [toNat_encode hW, ← hop, toNat_opField]
      rw [zeroField_eq] at hzero
      omega
  · rintro rfl
    exact (decode_zext hW _).trans (opcodeTable_eq_command.2 rfl)

/-- A word with a bit above bit 3, or with an unassigned low nibble, is illegal (R73). -/
theorem exists_decode_eq_illegal {v : Word W} (h : v.toNat / 16 ≠ 0 ∨ v.toNat % 16 = 0 ∨ 11 ≤ v.toNat % 16) :
    ∃ why, decode v = .illegal why := by
  by_cases hzero : zeroField v = 0
  · refine ⟨.unassignedOpcode, ?_⟩
    rw [decode, if_neg (by simp [hzero])]
    rw [zeroField_eq] at hzero
    apply opcodeTable_unassigned
    rw [toNat_opField]
    exact h.resolve_left (by simp [hzero])
  · exact ⟨.upperBitsSet, if_pos hzero⟩

/-- Settles O53: `decode_eq_command` with the number of a command's word. -/
theorem decodeIsInverseOfEncodeAtEveryWidth : Obligations.DecodeIsInverseOfEncodeAtEveryWidth := by
  intro W hW v i
  exact ⟨decode_eq_command (by omega), toNat_encode (by omega) i⟩

end Sys2Proof

/-! PROOF. The keys the sequencer derives (spec 43_derive_keys.md) and the key of reset meet R35 and R36 at every
width, and every step keeps them. -/

namespace Sys2Proof.Machine

variable {W : Nat}

/-! ## What a successful derivation computes -/

theorem publicExponent_eq_ok {strategy : Strategy} {phi e : Nat} (h : publicExponent strategy phi = .ok e) :
    (strategy = .fixedExponent17 ∧ e = 17) ∨
      (strategy = .searchSmallestCoprime ∧ 3 ≤ phi ∧ findExp phi = some e) := by
  cases strategy with
  | fixedExponent17 =>
    cases h
    exact .inl ⟨rfl, rfl⟩
  | searchSmallestCoprime =>
    change scanExponent phi = .ok e at h
    rcases scanExponent_cases phi with ⟨_, hscan⟩ | ⟨hphi, x, hx, hscan⟩ <;> rw [hscan] at h <;> cases h
    exact .inr ⟨rfl, hphi, hx⟩

/-- The inversion of the sequencer: two primes whose product fits, an accepted exponent, and the numbers of R122 to
R126. -/
theorem deriveKeys_eq_ok {w p q : Nat} {strategy : Strategy} {k : Derived} (h : deriveKeys w strategy p q = .ok k) :
    p.Prime ∧ q.Prime ∧ p * q < 2 ^ w ∧ publicExponent strategy ((p - 1) * (q - 1)) = .ok k.e ∧
      k.n = p * q ∧ k.phi = (p - 1) * (q - 1) ∧ k.d = modInv k.e k.phi := by
  rcases deriveKeys_cases w strategy p q with
    ⟨_, hk⟩ | ⟨_, _, _, hk⟩ | ⟨_, _, _, _, _, hk⟩ | ⟨hp, hq, hfit, e, he, hk⟩ <;>
    rw [hk] at h <;> cases h
  exact ⟨hp, hq, hfit, he, rfl, rfl, rfl⟩

/-! ## The answers of the sequencer, one rule per branch of R120 and its checks in order (R129) -/

theorem deriveKeys_of_not_prime (w : Nat) (strategy : Strategy) {p q : Nat} (h : ¬ p.Prime ∨ ¬ q.Prime) :
    deriveKeys w strategy p q = .error .invalidKeyMaterial := by
  have hcheck : (!isPrime p || !isPrime q) = true := by
    rcases h with hp | hq
    · simp [isPrime_eq_false.2 hp]
    · simp [isPrime_eq_false.2 hq]
  rw [deriveKeys, if_pos hcheck]

section

variable {w p q : Nat} {strategy : Strategy} (hp : p.Prime) (hq : q.Prime)

include hp hq

theorem deriveKeys_of_prime :
    deriveKeys w strategy p q =
      if 2 ^ w ≤ p * q then .error .overflow
      else (publicExponent strategy ((p - 1) * (q - 1))).map fun e =>
        ⟨p * q, (p - 1) * (q - 1), e, modInv e ((p - 1) * (q - 1))⟩ := by
  have hcheck : (!isPrime p || !isPrime q) = false := by simp [isPrime_eq_true.2 hp, isPrime_eq_true.2 hq]
  rw [deriveKeys, hcheck]
  cases h : publicExponent strategy ((p - 1) * (q - 1)) <;> simp [mulFull, Except.map, h]

theorem deriveKeys_of_overflow (hov : 2 ^ w ≤ p * q) : deriveKeys w strategy p q = .error .overflow := by
  rw [deriveKeys_of_prime hp hq, if_pos hov]

theorem deriveKeys_of_degenerate (hfit : p * q < 2 ^ w) (hphi : (p - 1) * (q - 1) ≤ 2) :
    deriveKeys w .searchSmallestCoprime p q = .error .degeneratePhi := by
  have hexp : publicExponent .searchSmallestCoprime ((p - 1) * (q - 1)) = .error .degeneratePhi := if_pos hphi
  rw [deriveKeys_of_prime hp hq, if_neg (by omega), hexp]
  rfl

theorem deriveKeys_of_exponent {e : Nat} (hfit : p * q < 2 ^ w)
    (he : publicExponent strategy ((p - 1) * (q - 1)) = .ok e) :
    deriveKeys w strategy p q = .ok ⟨p * q, (p - 1) * (q - 1), e, modInv e ((p - 1) * (q - 1))⟩ := by
  rw [deriveKeys_of_prime hp hq, if_neg (by omega), he]
  rfl

end

/-- Both primes are at least 2, which bounds the product and the totient (R36). -/
theorem totient_bounds {p q : Nat} (hp : 2 ≤ p) (hq : 2 ≤ q) :
    4 ≤ p * q ∧ 1 ≤ (p - 1) * (q - 1) ∧ (p - 1) * (q - 1) < p * q :=
  ⟨Nat.mul_le_mul hp hq, Nat.mul_le_mul (by omega : 1 ≤ p - 1) (by omega : 1 ≤ q - 1),
    Nat.mul_lt_mul'' (by omega) (by omega)⟩

theorem two_pow_thirteen_le {w : Nat} (hw : 13 ≤ w) : 8192 ≤ 2 ^ w :=
  Nat.pow_le_pow_right (by omega : 0 < 2) hw

/-- Settles O46: the bounds follow from those of the two primes, the inversion of the exponent and the laws of the two
searches. -/
theorem derivedKeyBoundsAtEveryWidth : Obligations.DerivedKeyBoundsAtEveryWidth := by
  intro w strategy p q k hw hk
  obtain ⟨hp, hq, hfit, he, hn, hphi, hd⟩ := deriveKeys_eq_ok hk
  obtain ⟨hn4, hphi1, hlt⟩ := totient_bounds hp.two_le hq.two_le
  have hpow := two_pow_thirteen_le hw
  rw [← hphi] at he hphi1 hlt
  rw [← hn] at hfit hn4 hlt
  have hinverse : ∀ d, k.d = some d → 1 ≤ d ∧ d < k.phi ∧ d ≠ 2 ^ w - 1 ∧ k.e * d % k.phi = 1 := by
    intro d hsome
    obtain ⟨h1, hdlt, hinv, _⟩ := modInv_eq_some.1 (hd ▸ hsome)
    exact ⟨h1, hdlt, by omega, hinv⟩
  refine ⟨hn4, hfit, hphi1, hlt, ?_⟩
  rcases publicExponent_eq_ok he with ⟨rfl, he17⟩ | ⟨rfl, hphi3, hscan⟩
  · exact ⟨by omega, by omega, hinverse, nofun⟩
  · obtain ⟨he2, helt, hcop, _⟩ := findExp_eq_some.1 hscan
    refine ⟨he2, by omega, hinverse, fun _ => ⟨hphi3, helt, hcop, fun hnone => ?_⟩⟩
    rcases modInv_eq_none_iff.1 (hd ▸ hnone) with hle | hnot
    · omega
    · exact hnot hcop

/-! ## The words of a derived key -/

/-- The numbers of a derived key fit the width, so the registers hold them (R127). -/
theorem toNat_keyWords (hW : 13 ≤ W) {strategy : Strategy} {p q : Word W} {k : Derived}
    (hk : deriveKeys W strategy p.toNat q.toNat = .ok k) :
    (keyWords p q k).n.toNat = k.n ∧ (keyWords p q k).phi.toNat = k.phi ∧ (keyWords p q k).e.toNat = k.e := by
  obtain ⟨_, hn, _, hphi, _, he, _⟩ := derivedKeyBoundsAtEveryWidth W strategy _ _ k hW hk
  exact ⟨Word.toNat_low_of_lt hn, Word.toNat_low_of_lt (hphi.trans hn), Word.toNat_low_of_lt he⟩

/-- Every key the sequencer commits meets R35 and R36. -/
theorem keyConsistent_keyWords (hW : 13 ≤ W) {strategy : Strategy} {p q : Word W} {k : Derived}
    (hk : deriveKeys W strategy p.toNat q.toNat = .ok k) : KeyConsistent strategy (keyWords p q k) := by
  obtain ⟨hp, hq, _, he, hn, hphi, hd⟩ := deriveKeys_eq_ok hk
  obtain ⟨hn4, hfit, hphi1, hlt, he2, _, hinverse, hscan⟩ := derivedKeyBoundsAtEveryWidth W strategy _ _ k hW hk
  obtain ⟨hnW, hphiW, heW⟩ := toNat_keyWords hW hk
  have hsent : (keyWords p q k).d = Word.sent ↔ k.d = none := by
    show inverseWord k.d = Word.sent ↔ _
    rw [hd]
    exact inverseWord_eq_sent (hlt.trans hfit)
  refine ⟨hp, hq, hnW.trans hn, hphiW.trans hphi, ?_, ?_, ?_, ?_, ?_, ?_, ?_⟩ <;> simp only [hnW, hphiW, heW]
  · exact hn4
  · exact hphi1
  · exact hlt
  · exact he2
  · intro hne
    obtain ⟨d, hsome⟩ := Option.ne_none_iff_exists'.1 (hsent.not.1 hne)
    obtain ⟨h1, hdlt, _, hinv⟩ := hinverse d hsome
    have hdW : (keyWords p q k).d.toNat = d := by
      simp only [keyWords, hsome, inverseWord]
      exact Word.toNat_low_of_lt (by omega)
    rw [hdW]
    exact ⟨h1, hdlt, hinv⟩
  · intro hs
    obtain ⟨hphi3, helt, hcop, hfound⟩ := hscan hs
    exact ⟨hphi3, helt, hcop, hsent.not.2 hfound⟩
  · intro hs
    rcases publicExponent_eq_ok he with ⟨_, he17⟩ | ⟨hs', _⟩
    · rw [hsent, hd, he17, modInv_eq_none_iff]
      refine ⟨rfl, ?_⟩
      have : k.phi ≤ 1 ↔ k.phi = 1 := by omega
      rw [this, or_comm]
    · cases hs.symm.trans hs'

/-! ## The key of reset -/

/-- The numbers of the reset key under each strap (R40). -/
def resetDerived : Strategy → Derived
  | .fixedExponent17 => ⟨3233, 3120, 17, some 2753⟩
  | .searchSmallestCoprime => ⟨3233, 3120, 7, some 1783⟩

theorem publicExponent_reset (strategy : Strategy) :
    publicExponent strategy 3120 = .ok (resetDerived strategy).e := by
  cases strategy <;> rfl

theorem modInv_reset (strategy : Strategy) :
    modInv (resetDerived strategy).e 3120 = (resetDerived strategy).d := by
  cases strategy <;> exact modInv_of_inverse (by decide) (by decide)

/-- The reset key is what the sequencer derives from the default primes (R176). -/
theorem deriveKeys_default_primes {w : Nat} (hw : 13 ≤ w) (strategy : Strategy) :
    deriveKeys w strategy Config.P0 Config.Q0 = .ok (resetDerived strategy) := by
  have hfit : 61 * 53 < 2 ^ w := (by decide : 61 * 53 < 8192).trans_le (two_pow_thirteen_le hw)
  calc deriveKeys w strategy Config.P0 Config.Q0
      = .ok ⟨3233, 3120, (resetDerived strategy).e, modInv (resetDerived strategy).e 3120⟩ :=
        deriveKeys_of_exponent (by norm_num) (by norm_num) hfit (publicExponent_reset strategy)
    _ = .ok (resetDerived strategy) := by
        rw [modInv_reset]
        cases strategy <;> rfl

theorem keyState_reset_eq_keyWords (strategy : Strategy) :
    KeyState.reset strategy W = keyWords (Word.low Config.P0) (Word.low Config.Q0) (resetDerived strategy) := by
  cases strategy <;> rfl

theorem keyConsistent_reset (hW : 13 ≤ W) (strategy : Strategy) :
    KeyConsistent strategy (KeyState.reset strategy W) := by
  rw [keyState_reset_eq_keyWords]
  apply keyConsistent_keyWords hW
  have hp : (Word.low Config.P0 : Word W).toNat = Config.P0 := Word.toNat_ofNat_of_lt hW (by decide)
  have hq : (Word.low Config.Q0 : Word W).toNat = Config.Q0 := Word.toNat_ofNat_of_lt hW (by decide)
  rw [hp, hq]
  exact deriveKeys_default_primes hW strategy

/-! ## The invariant -/

theorem inv_resetWith (hW : 13 ≤ W) (strategy : Strategy) : (State.resetWith strategy W).Inv :=
  keyConsistent_reset hW strategy

/-- A state with the strategy and the key of a consistent one is consistent. -/
theorem State.Inv.congr {s t : State W} (hs : s.Inv) (hstrategy : t.strategy = s.strategy) (hkey : t.key = s.key) :
    t.Inv := by
  rw [State.Inv, hstrategy, hkey]
  exact hs

/-- Of the endings of a command only that of DERIVE touches the key. -/
theorem Ending.inv (hW : 13 ≤ W) {i : Instr} {s t : State W} (h : Ending i s t) (hs : s.Inv) : t.Inv := by
  cases h with
  | failed c _ _ ht => subst ht; exact hs.congr rfl rfl
  | derived _ k hk ht => subst ht; exact keyConsistent_keyWords hW hk
  | result _ lo hi _ ht => subst ht; exact hs.congr rfl rfl

/-- Of the host's actions only a command and a reset touch the key. -/
theorem Performed.inv (hW : 13 ≤ W) {a : HostAction W} {s t : State W} (h : Performed s t a) (hs : s.Inv) :
    t.Inv := by
  cases h with
  | read idx ht => subst ht; exact hs.congr rfl rfl
  | stored idx v ht => rcases ht with rfl | rfl | rfl <;> exact hs.congr rfl rfl
  | ignored idx v ht => subst ht; exact hs.congr rfl rfl
  | illegal idx v why _ _ ht => subst ht; exact hs.congr rfl rfl
  | command idx v i _ _ _ hend => exact hend.inv hW (hs.congr rfl rfl)
  | reset strategy ht => subst ht; exact (inv_resetWith hW strategy).congr rfl rfl

theorem inv_of_stepAt (hW : 13 ≤ W) {s t : State W} (hs : s.Inv) (h : stepAt s = .next t) : t.Inv := by
  rcases stepAt_inversion h with ⟨_, rfl⟩ | ⟨a, rest, _, hperf⟩
  · exact hs.congr rfl rfl
  · exact hperf.inv hW (hs.congr rfl rfl)

/-- Settles O60: the reset key is a derived key, and a step keeps the key, resets it or commits a derived one. -/
theorem everyStepKeepsTheKeyConsistentAtEveryWidth : Obligations.EveryStepKeepsTheKeyConsistentAtEveryWidth :=
  fun _ hW => ⟨inv_resetWith hW, fun _ _ => inv_of_stepAt hW⟩

end Sys2Proof.Machine

/-! PROOF. What a step does at every width when the oldest action is a write to `CMD` or a reset, and the words `STATUS`
and `CFG` read as (spec 20_memory.md R54, 60_exceptions.md R156, 70_reset_and_hazards.md R175, 10_state.md R28, R31). -/

namespace Sys2Proof.Machine

variable {W : Nat}

/-! ## A write to `CMD` -/

/-- The step that takes a write to `CMD` runs the word on the state without the action (R54). -/
theorem stepAt_of_commandWrite {s : State W} {v : Word W} {rest : List (HostAction W)}
    (h : s.pending = .write 0 v :: rest) : stepAt s = runWord v { s with pending := rest, reply := .ack } :=
  stepAt_of_pending h

theorem runWord_of_command {v : Word W} {i : Instr} (h : decode v = .command i) (s : State W) :
    runWord v s = execAt i s := by
  rw [runWord, h]

theorem runWord_of_illegal {v : Word W} {why : IllegalWord} (h : decode v = .illegal why) (s : State W) :
    runWord v s = .next (s.withCode .illegalCmd) := by
  rw [runWord, h, fail]

/-- A command that ends with an error code has written nothing but the code (R156). -/
theorem Ending.eq_withCode {i : Instr} {s t : State W} (h : Ending i s t) (hne : t.code ≠ .ok) :
    t = s.withCode t.code := by
  cases h with
  | failed c _ _ ht => subst ht; rfl
  | derived _ k _ ht => subst ht; exact absurd rfl hne
  | result _ lo hi _ ht => subst ht; exact absurd rfl hne

/-- The same for a word, whether or not it spells a command (R156). -/
theorem runWord_failure {v : Word W} {s t : State W} (h : runWord v s = .next t) (hne : t.code ≠ .ok) :
    t = s.withCode t.code := by
  rcases runWord_cases v s with ⟨_, _, hrun⟩ | ⟨i, u, _, hrun, _, hend⟩ <;> rw [hrun] at h <;> cases h
  · rfl
  · exact hend.eq_withCode hne

/-- Settles O54: the step is `runWord`, whose answers to a command, to an illegal word and on failure are known. -/
theorem commandWritesAtEveryWidth : Obligations.CommandWritesAtEveryWidth := by
  intro W _ s v rest hp
  rw [stepAt_of_commandWrite hp]
  refine ⟨fun i hi => runWord_of_command hi _, fun hv => ?_, fun t ht hne => ?_⟩
  · obtain ⟨why, hwhy⟩ := exists_decode_eq_illegal hv
    exact ⟨_, runWord_of_illegal hwhy _, rfl, rfl, rfl, rfl, rfl, rfl, rfl, rfl⟩
  · rw [runWord_failure ht hne]
    exact ⟨rfl, rfl, rfl, rfl, rfl, rfl, rfl, rfl⟩

/-! ## A reset -/

theorem stepAt_of_reset {s : State W} {strap : Strategy} {rest : List (HostAction W)}
    (h : s.pending = .reset strap :: rest) :
    stepAt s = .next ((State.resetWith strap W).withPending rest) :=
  stepAt_of_pending h

theorem toNat_keyState_reset (hW : 13 ≤ W) (strap : Strategy) :
    (KeyState.reset strap W).p.toNat = 61 ∧ (KeyState.reset strap W).q.toNat = 53 ∧
      (KeyState.reset strap W).n.toNat = 3233 ∧ (KeyState.reset strap W).phi.toNat = 3120 := by
  cases strap <;>
    exact ⟨Word.toNat_ofNat_of_lt hW (by decide), Word.toNat_ofNat_of_lt hW (by decide),
      Word.toNat_ofNat_of_lt hW (by decide), Word.toNat_ofNat_of_lt hW (by decide)⟩

/-- Settles O55: the step is the reset state, whose numbers the bound on the width makes fit. -/
theorem resetSetsEveryRegisterAtEveryWidth : Obligations.ResetSetsEveryRegisterAtEveryWidth := by
  intro W hW s strap rest hp
  have hnum : ∀ {v : Nat}, v < 2 ^ 13 → (BitVec.ofNat W v).toNat = v := Word.toNat_ofNat_of_lt hW
  have hzero : (0 : Word W).toNat = 0 := hnum (by decide)
  obtain ⟨hkp, hkq, hkn, hkphi⟩ := toNat_keyState_reset hW strap
  refine ⟨_, stepAt_of_reset hp, rfl, hzero, hzero, hzero, hzero, hzero, rfl, hkp, hkq, hkn, hkphi, ?_, ?_⟩
  · rintro rfl
    exact ⟨hnum (by decide), hnum (by decide)⟩
  · rintro rfl
    exact ⟨hnum (by decide), hnum (by decide)⟩

/-! ## The words of `STATUS` and `CFG` -/

/-- Bit 4 of `STATUS` as a number (R28). -/
theorem toNat_noInvBit (hW : 13 ≤ W) (b : Bool) :
    ((BitVec.ofBool b).setWidth W <<< 4).toNat = if b then 16 else 0 := by
  have hpow := two_pow_thirteen_le hW
  cases b with
  | false => simp
  | true =>
    have hone : 1 % 2 ^ W = 1 := Nat.mod_eq_of_lt (by omega)
    have hsixteen : 16 % 2 ^ W = 16 := Nat.mod_eq_of_lt (by omega)
    simp [BitVec.toNat_shiftLeft, hone, hsixteen]

/-- The code leaves bit 4 free, so that the two fields of `STATUS` add up (R28). -/
theorem code_or_noInvBit (c : Code) (b : Bool) :
    c.bits.toNat ||| (if b then 16 else 0) = c.bits.toNat + (if b then 16 else 0) := by
  cases c <;> cases b <;> rfl

theorem toNat_statusWord (hW : 13 ≤ W) (s : State W) :
    (statusWord s).toNat = s.code.bits.toNat + (if s.key.noInverse then 16 else 0) := by
  have hcode : (s.code.bits.setWidth W).toNat = s.code.bits.toNat :=
    BitVec.toNat_setWidth_of_le (by omega)
  rw [statusWord, BitVec.toNat_or, toNat_noInvBit hW, hcode, code_or_noInvBit]

theorem noInverse_iff_toNat (k : KeyState W) : k.noInverse = true ↔ k.d.toNat = 2 ^ W - 1 := by
  rw [noInverse_eq_true, ← BitVec.toNat_inj, Word.toNat_sent]

theorem toNat_cfgWord (hW : 13 ≤ W) (s : State W) :
    (cfgWord s).toNat = if s.strategy = .searchSmallestCoprime then 1 else 0 := by
  have hbit : (cfgWord s).toNat = s.strategy.bit.toNat := BitVec.toNat_setWidth_of_le (by omega)
  rw [hbit]
  cases s.strategy <;> rfl

/-- Settles O56, from the numbers of the two fields of `STATUS` and of the bit of `CFG`. -/
theorem statusAndCfgWordsAtEveryWidth : Obligations.StatusAndCfgWordsAtEveryWidth := by
  intro W hW s
  refine ⟨?_, toNat_cfgWord hW s⟩
  rw [toNat_statusWord hW]
  simp only [noInverse_iff_toNat]

/-- Settles O52: both sides take the same arm for each command, and `step` is `stepAt` by definition. -/
theorem referenceMachineIsTheMachineAtWidth32 : Obligations.ReferenceMachineIsTheMachineAtWidth32 :=
  ⟨exec_eq_execAt, step_eq_stepAt⟩

end Sys2Proof.Machine

/-! PROOF. The seven unit commands at every width (spec 40_multiply_primality.md, 41_gcd_exponent_search.md,
42_inverse_search.md, 44_modexp_transforms.md): the whole next state of each, and the number it leaves. -/

namespace Sys2Proof.Machine

variable {W : Nat}

/-! ## MUL, ISPRIME, GCD, COPRIME -/

theorem toNat_high_mul (a b : Word W) : (Word.high (a.toNat * b.toNat) : Word W).toNat = a.toNat * b.toNat / 2 ^ W := by
  have hdiv : a.toNat * b.toNat / 2 ^ W < 2 ^ W := Nat.div_lt_of_lt_mul (Nat.mul_lt_mul'' a.isLt b.isLt)
  rw [Word.high, BitVec.toNat_ofNat, Nat.mod_eq_of_lt hdiv]

theorem execAt_mul (s : State W) :
    ∃ lo hi : Word W, execAt .mul s = .next { s with resLo := lo, resHi := hi, code := .ok } ∧
      lo.toNat = s.opa.toNat * s.opb.toNat % 2 ^ W ∧ hi.toNat = s.opa.toNat * s.opb.toNat / 2 ^ W :=
  ⟨_, _, rfl, Word.toNat_low _, toNat_high_mul _ _⟩

theorem execAt_isprime (hW : 0 < W) (s : State W) :
    ∃ r : Word W, execAt .isprime s = .next { s with resLo := r, resHi := 0, code := .ok } ∧
      (s.opa.toNat.Prime → r.toNat = 1) ∧ (¬ s.opa.toNat.Prime → r.toNat = 0) := by
  refine ⟨testWord (isPrime s.opa.toNat), rfl, fun h => ?_, fun h => ?_⟩ <;> rw [toNat_testWord hW]
  · exact if_pos (isPrime_eq_true.2 h)
  · exact if_neg (by simpa using isPrime_eq_false.2 h)

/-- A greatest common divisor of two words is a word: it is no larger than one of them. -/
theorem gcd_lt_two_pow (a b : Word W) : Nat.gcd a.toNat b.toNat < 2 ^ W := by
  rcases Nat.eq_zero_or_pos a.toNat with h | h
  · rw [h, Nat.gcd_zero_left]
    exact b.isLt
  · exact (Nat.gcd_le_left _ h).trans_lt a.isLt

theorem execAt_gcd (s : State W) :
    ∃ r : Word W, execAt .gcd s = .next { s with resLo := r, resHi := 0, code := .ok } ∧
      r.toNat = Nat.gcd s.opa.toNat s.opb.toNat := by
  refine ⟨_, rfl, ?_⟩
  rw [euclid_eq_gcd]
  exact Word.toNat_low_of_lt (gcd_lt_two_pow _ _)

theorem execAt_coprime (hW : 0 < W) (s : State W) :
    ∃ r : Word W, execAt .coprime s = .next { s with resLo := r, resHi := 0, code := .ok } ∧
      r.toNat = if Nat.gcd s.opa.toNat s.opb.toNat = 1 then 1 else 0 := by
  refine ⟨testWord (coprime s.opa.toNat s.opb.toNat), rfl, ?_⟩
  rw [toNat_testWord hW]
  simp only [coprime_eq_true, Nat.Coprime]

/-! ## FINDEXP -/

theorem execAt_findexp_degenerate {s : State W} (h : s.opa.toNat ≤ 2) :
    execAt .findexp s = .next { s with code := .degeneratePhi } := by
  have hscan : scanExponent (opaNat s) = .error .degeneratePhi := if_pos h
  show execFindexp s = _
  rw [execFindexp, hscan]
  rfl

theorem execAt_findexp {s : State W} (h : 3 ≤ s.opa.toNat) :
    ∃ r : Word W, execAt .findexp s = .next { s with resLo := r, resHi := 0, code := .ok } ∧
      2 ≤ r.toNat ∧ r.toNat < s.opa.toNat ∧ Nat.gcd r.toNat s.opa.toNat = 1 ∧
      ∀ y, 2 ≤ y → y < r.toNat → Nat.gcd y s.opa.toNat ≠ 1 := by
  obtain ⟨x, hx⟩ := exists_findExp h
  have hspec := findExp_eq_some.1 hx
  have hscan : scanExponent (opaNat s) = .ok x := by rw [scanExponent, if_neg (Nat.not_le.2 h), hx]
  refine ⟨Word.low x, ?_, ?_⟩
  · show execFindexp s = _
    rw [execFindexp, hscan]
    rfl
  · rw [Word.toNat_low_of_lt (hspec.2.1.trans s.opa.isLt)]
    exact hspec

/-! ## MODINV -/

theorem execAt_modinv_zero {s : State W} (h : s.opb.toNat = 0) :
    execAt .modinv s = .next { s with code := .zeroModulus } := if_pos h

/-- The word of the search below a modulus that is itself a word: the first inverse, or the sentinel (R110). -/
theorem toNat_inverseWord_modInv {a m : Nat} (hm : m < 2 ^ W) :
    let r : Word W := inverseWord (modInv a m)
    (1 ≤ r.toNat ∧ r.toNat < m ∧ a * r.toNat % m = 1 ∧ ∀ y, 1 ≤ y → y < r.toNat → a * y % m ≠ 1) ∨
      (r.toNat = 2 ^ W - 1 ∧ ∀ y, 1 ≤ y → y < m → a * y % m ≠ 1) := by
  cases h : modInv a m with
  | none => exact .inr ⟨Word.toNat_sent, modInv_eq_none.1 h⟩
  | some x =>
    have hx := modInv_eq_some.1 h
    have hnat : (inverseWord (some x) : Word W).toNat = x := Word.toNat_low_of_lt (hx.2.1.trans hm)
    left
    rw [hnat]
    exact hx

theorem execAt_modinv {s : State W} (h : 1 ≤ s.opb.toNat) :
    ∃ r : Word W, execAt .modinv s = .next { s with resLo := r, resHi := 0, code := .ok } ∧
      ((1 ≤ r.toNat ∧ r.toNat < s.opb.toNat ∧ s.opa.toNat % s.opb.toNat * r.toNat % s.opb.toNat = 1 ∧
          ∀ y, 1 ≤ y → y < r.toNat → s.opa.toNat % s.opb.toNat * y % s.opb.toNat ≠ 1) ∨
        (r.toNat = 2 ^ W - 1 ∧
          ∀ y, 1 ≤ y → y < s.opb.toNat → s.opa.toNat % s.opb.toNat * y % s.opb.toNat ≠ 1)) := by
  simp only [Nat.mod_mul_mod]
  exact ⟨_, if_neg (Nat.ne_of_gt h), toNat_inverseWord_modInv s.opb.isLt⟩

/-! ## MODEXP -/

theorem execAt_modexp_zero {s : State W} (h : s.opc.toNat = 0) :
    execAt .modexp s = .next { s with code := .zeroModulus } := if_pos h

/-- With a modulus above 0 the accumulator fits the modulus' width after every step, the start 1 included. -/
theorem powerLoop_lt_two_pow (hW : 0 < W) {n : Nat} (hn : 1 ≤ n) (hfit : n < 2 ^ W) (base k : Nat) :
    powerLoop base n k < 2 ^ W := by
  cases k with
  | zero => exact Nat.one_lt_two_pow (by omega)
  | succ k => exact (Nat.mod_lt _ hn).trans hfit

/-- The word of the exponentiation unit is the accumulator after `exp` steps (R135). -/
theorem toNat_powerWord_eq_powerLoop (hW : 0 < W) {base exp n : Word W} (hn : 1 ≤ n.toNat) :
    (powerWord base exp n).toNat = powerLoop base.toNat n.toNat exp.toNat := by
  have hne : n ≠ 0 := by
    rintro rfl
    simp at hn
  rw [powerWord, if_neg hne, modExp, Word.toNat_low_of_lt (powerLoop_lt_two_pow hW hn n.isLt _ _)]

theorem execAt_modexp (hW : 0 < W) {s : State W} (h : 1 ≤ s.opc.toNat) :
    ∃ r : Word W, execAt .modexp s = .next { s with resLo := r, resHi := 0, code := .ok } ∧
      ∃ acc : Nat → Nat, acc 0 = 1 ∧
        (∀ k, k < s.opb.toNat → acc (k + 1) = acc k * s.opa.toNat % s.opc.toNat) ∧ r.toNat = acc s.opb.toNat :=
  ⟨_, if_neg (Nat.ne_of_gt h), powerLoop s.opa.toNat s.opc.toNat, rfl, fun _ _ => rfl,
    toNat_powerWord_eq_powerLoop hW h⟩

/-- Settles O57: one rule per unit command and branch. -/
theorem unitCommandsAtEveryWidth : Obligations.UnitCommandsAtEveryWidth := by
  intro W hW s
  have hpos : 0 < W := by omega
  exact ⟨execAt_mul s, execAt_isprime hpos s, execAt_gcd s, execAt_coprime hpos s,
    execAt_findexp_degenerate, execAt_findexp, execAt_modinv_zero, execAt_modinv,
    execAt_modexp_zero, execAt_modexp hpos⟩

end Sys2Proof.Machine

/-! PROOF. DERIVE and the unit transforms at every width (spec 43_derive_keys.md, 44_modexp_transforms.md). -/

namespace Sys2Proof.Machine

variable {W : Nat}

/-! ## DERIVE -/

theorem execAt_derive_error {s : State W} {c : Code}
    (h : deriveKeys W s.strategy s.opa.toNat s.opb.toNat = .error c) :
    execAt .derive s = .next { s with code := c } := by
  show execDerive s = _
  rw [execDerive, h]
  rfl

theorem execAt_derive_ok {s : State W} {k : Derived}
    (h : deriveKeys W s.strategy s.opa.toNat s.opb.toNat = .ok k) :
    execAt .derive s = .next { s with key := keyWords s.opa s.opb k, code := .ok } := by
  show execDerive s = _
  rw [execDerive, h]
  rfl

/-- The fixed strategy always has an exponent, and the scan has one for `phi >= 3` (R124, R106). -/
theorem exists_publicExponent {strategy : Strategy} {phi : Nat} (h : strategy = .fixedExponent17 ∨ 3 ≤ phi) :
    ∃ e, publicExponent strategy phi = .ok e := by
  cases strategy with
  | fixedExponent17 => exact ⟨_, rfl⟩
  | searchSmallestCoprime =>
    have hphi : 3 ≤ phi := h.resolve_left nofun
    rcases scanExponent_cases phi with ⟨hle, _⟩ | ⟨_, x, _, hscan⟩
    · omega
    · exact ⟨x, hscan⟩

/-- Under the scan strategy no candidate below the exponent is coprime to `phi` (R105). -/
theorem derived_exponent_least {w p q : Nat} {k : Derived}
    (h : deriveKeys w .searchSmallestCoprime p q = .ok k) {y : Nat} (hy : 2 ≤ y) (hlt : y < k.e) :
    Nat.gcd y k.phi ≠ 1 := by
  obtain ⟨_, _, _, he, _, hphi, _⟩ := deriveKeys_eq_ok h
  rcases publicExponent_eq_ok he with ⟨hs, _⟩ | ⟨_, _, hfind⟩
  · cases hs
  · obtain ⟨_, _, _, hleast⟩ := findExp_eq_some.1 hfind
    rw [hphi]
    exact hleast y hy hlt

/-- Settles O59: each branch of the sequencer with the ending of the command. -/
theorem deriveAtEveryWidth : Obligations.DeriveAtEveryWidth := by
  intro W hW s
  refine ⟨fun hnot => ?_, fun hp hq => ⟨fun hov => ?_, fun hfit => ⟨?_, ?_⟩⟩⟩
  · exact execAt_derive_error (deriveKeys_of_not_prime _ _ hnot)
  · exact execAt_derive_error (deriveKeys_of_overflow hp hq hov)
  · intro hs hphi
    apply execAt_derive_error
    rw [hs]
    exact deriveKeys_of_degenerate hp hq hfit hphi
  · intro haccept
    obtain ⟨e, he⟩ := exists_publicExponent haccept
    have hk := deriveKeys_of_exponent hp hq hfit he
    obtain ⟨_, hphiW, heW⟩ := toNat_keyWords hW hk
    refine ⟨_, execAt_derive_ok hk, rfl, rfl, keyConsistent_keyWords hW hk, fun hs y hy hlt => ?_⟩
    rw [heW] at hlt
    rw [hphiW]
    exact derived_exponent_least (hs ▸ hk) hy hlt

/-! ## The round trip -/

/-- Fermat's little theorem in the form R145 uses: an exponent that is 1 above a multiple of `p - 1` changes nothing
modulo `p`, also for a multiple of `p`. -/
theorem pow_modEq_self_of_prime {p : Nat} (hp : p.Prime) (m j : Nat) : m ^ ((p - 1) * j + 1) ≡ m [MOD p] := by
  by_cases hcop : m.Coprime p
  · have hfermat : (m ^ (p - 1)) ^ j ≡ 1 ^ j [MOD p] := (Nat.ModEq.pow_card_sub_one_eq_one hp hcop).pow j
    calc m ^ ((p - 1) * j + 1) = (m ^ (p - 1)) ^ j * m := by rw [pow_succ, pow_mul]
      _ ≡ 1 ^ j * m [MOD p] := hfermat.mul_right m
      _ = m := by simp
  · have hzero : m ≡ 0 [MOD p] := by
      rw [Nat.modEq_zero_iff_dvd]
      by_contra hdvd
      exact hcop (hp.coprime_iff_not_dvd.2 hdvd).symm
    calc m ^ ((p - 1) * j + 1) ≡ 0 ^ ((p - 1) * j + 1) [MOD p] := hzero.pow _
      _ = 0 := by simp
      _ ≡ m [MOD p] := hzero.symm

/-- For distinct primes the two congruences combine (R145). -/
theorem pow_modEq_self_of_primes {p q x : Nat} (hp : p.Prime) (hq : q.Prime) (hne : p ≠ q)
    (hx : x % ((p - 1) * (q - 1)) = 1) (m : Nat) : m ^ x ≡ m [MOD p * q] := by
  have hsplit : x = (p - 1) * (q - 1) * (x / ((p - 1) * (q - 1))) + 1 := by
    have := Nat.div_add_mod x ((p - 1) * (q - 1))
    omega
  rw [← Nat.modEq_and_modEq_iff_modEq_mul ((Nat.coprime_primes hp hq).2 hne)]
  generalize x / ((p - 1) * (q - 1)) = j at hsplit
  constructor
  · rw [hsplit, mul_assoc]
    exact pow_modEq_self_of_prime hp m _
  · rw [hsplit, mul_comm (p - 1), mul_assoc]
    exact pow_modEq_self_of_prime hq m _

/-- One transform undoes the other under a consistent key of distinct primes with a private exponent. -/
theorem powerWord_powerWord {strategy : Strategy} {k : KeyState W} (hk : KeyConsistent strategy k)
    (hd : k.d ≠ Word.sent) (hne : k.p ≠ k.q) (m : Word W) :
    (powerWord (powerWord m k.e k.n) k.d k.n).toNat = m.toNat % k.n.toNat := by
  obtain ⟨hd1, _, hinv⟩ := hk.d_inverse hd
  have nonzero : ∀ {v : Word W}, 1 ≤ v.toNat → v ≠ 0 := by
    rintro v hv rfl
    simp at hv
  have hn0 : k.n ≠ 0 := nonzero (le_trans (by decide) hk.n_ge)
  have he0 : k.e ≠ 0 := nonzero (le_trans (by decide) hk.e_ge)
  have hprimes : k.p.toNat ≠ k.q.toNat := fun h => hne (BitVec.eq_of_toNat_eq h)
  rw [hk.phi_eq] at hinv
  rw [toNat_powerWord (nonzero hd1) hn0, toNat_powerWord he0 hn0, ← Nat.pow_mod, ← pow_mul, hk.n_eq]
  exact pow_modEq_self_of_primes hk.p_prime hk.q_prime hprimes hinv m.toNat

theorem execAt_encrypt (s : State W) :
    execAt .encrypt s = .next { s with resLo := powerWord s.opa s.key.e s.key.n, resHi := 0, code := .ok } := rfl

theorem execAt_decrypt (s : State W) :
    execAt .decrypt s = .next { s with resLo := decryptWord s.opa s.key, resHi := 0, code := .ok } := rfl

theorem decryptWord_of_inverse {k : KeyState W} (h : k.d ≠ Word.sent) (c : Word W) :
    decryptWord c k = powerWord c k.d k.n := by
  rw [decryptWord, noInverse_eq_false.2 h, if_neg Bool.false_ne_true]

theorem decryptWord_of_sentinel {k : KeyState W} (h : k.d = Word.sent) (c : Word W) :
    decryptWord c k = Config.noInvResult c k.p k.q k.n k.phi k.e :=
  if_pos (noInverse_eq_true.2 h)

/-- Settles O58: the two transforms in turn are `powerWord_powerWord`, and the sentinel selects the free result. -/
theorem transformsAtEveryWidth : Obligations.TransformsAtEveryWidth := by
  intro W _ s m
  constructor
  · intro hinv hd hne
    refine ⟨_, _, execAt_encrypt _, execAt_decrypt _, ?_⟩
    show (decryptWord (powerWord m s.key.e s.key.n) s.key).toNat = _
    rw [decryptWord_of_inverse hd]
    exact powerWord_powerWord hinv hd hne m
  · intro hd
    rw [execAt_decrypt, decryptWord_of_sentinel hd]

end Sys2Proof.Machine

/-! PROOF. The key invariant at the reference width (spec 10_state.md R35, R36), and the word `STATUS` reads as with
what the invariant says of its bit `NOINV` (R28, R29). -/

namespace Sys2Proof.Machine

variable {W : Nat}

/-- Settles O48: the step lemma of every width at W = 32. -/
theorem everyStepKeepsTheKeyConsistent : Obligations.EveryStepKeepsTheKeyConsistent :=
  fun _ _ => inv_of_stepAt Config.thirteen_le_W

/-- Settles O47: the reset key of every width at W = 32. -/
theorem resetKeyIsConsistent : Obligations.ResetKeyIsConsistent := inv_resetWith Config.thirteen_le_W

/-- Reset has a consistent key, the host's queue is no part of it, and every step keeps it. -/
theorem Reachable.inv (hW : 13 ≤ W) {s : State W} (h : Reachable s) : s.Inv := by
  induction h with
  | reset strategy => exact inv_resetWith hW strategy
  | issue l _ ih => exact ih.congr rfl rfl
  | step _ hstep ih => exact inv_of_stepAt hW ih hstep

/-- Settles O49, by induction on how the state is reached. -/
theorem reachableKeysAreConsistent : Obligations.ReachableKeysAreConsistent :=
  fun _ => Reachable.inv Config.thirteen_le_W

/-- Bit 4 of `STATUS` is `NOINV`: the code lies below it (R28). -/
theorem getLsbD_four_statusWord (hW : 5 ≤ W) (s : State W) : (statusWord s).getLsbD 4 = s.key.noInverse := by
  have hbit : 4 < W := by omega
  simp [statusWord, hbit]

/-- The totient of two primes is 1 for the pair 2, 2 and for no other. -/
theorem KeyConsistent.phi_eq_one_iff {strategy : Strategy} {k : KeyState W} (hk : KeyConsistent strategy k) :
    k.phi.toNat = 1 ↔ k.p.toNat = 2 ∧ k.q.toNat = 2 := by
  have hp := hk.p_prime.two_le
  have hq := hk.q_prime.two_le
  rw [hk.phi_eq, mul_eq_one]
  omega

/-- The sentinel shows exactly under the fixed strategy, when 17 shares a factor with `phi` or `phi` is 1 (R36). -/
theorem KeyConsistent.noInverse_iff {strategy : Strategy} {k : KeyState W} (hk : KeyConsistent strategy k) :
    k.noInverse = true ↔
      strategy = .fixedExponent17 ∧ (17 ∣ k.phi.toNat ∨ (k.p.toNat = 2 ∧ k.q.toNat = 2)) := by
  rw [noInverse_eq_true]
  cases strategy with
  | fixedExponent17 =>
    have hprime : Nat.Prime 17 := by norm_num
    obtain ⟨_, hsent⟩ := hk.fixed rfl
    rw [hsent, hprime.coprime_iff_not_dvd, not_not, hk.phi_eq_one_iff]
    simp
  | searchSmallestCoprime =>
    obtain ⟨_, _, _, hfound⟩ := hk.scan rfl
    simp [hfound]

/-- Settles O50: bit 4 is `NOINV`, and the key of a reachable state is consistent. -/
theorem noInvOnlyUnderTheFixedExponent : Obligations.NoInvOnlyUnderTheFixedExponent := by
  intro s hs
  have hinv : KeyConsistent s.strategy s.key := hs.inv Config.thirteen_le_W
  have htwo : ∀ v : Word, v = 2 ↔ v.toNat = 2 := fun v => BitVec.toNat_inj.symm
  rw [getLsbD_four_statusWord (by decide), hinv.noInverse_iff, htwo, htwo]

/-- Settles O18: the two fields of `STATUS` as numbers add up to the word. -/
theorem statusWordLayout : Obligations.StatusWordLayout := by
  intro s
  rw [toNat_statusWord Config.thirteen_le_W]
  simp only [noInverse_eq_true]
  congr 1
  cases s.code <;> rfl

end Sys2Proof.Machine

/-! PROOF. What a command and a step leave unchanged (spec 10_state.md R21, R22, R31, R34), and the registers after a
reset (R40). -/

namespace Sys2Proof.Machine

variable {W : Nat}

/-! ## Reset -/

/-- Settles O9: the step is the reset state, whose registers are these words. -/
theorem resetSetsEveryRegister : Obligations.ResetSetsEveryRegister := by
  intro s strap rest hp
  refine ⟨_, stepAt_of_reset hp, rfl, rfl, rfl, rfl, rfl, rfl, rfl, ?_⟩
  cases strap with
  | fixedExponent17 => exact ⟨rfl, rfl, rfl, rfl, fun _ => ⟨rfl, rfl⟩, nofun, rfl⟩
  | searchSmallestCoprime => exact ⟨rfl, rfl, rfl, rfl, nofun, fun _ => ⟨rfl, rfl⟩, rfl⟩

/-! ## The frame of a command -/

/-- No command writes an operand register (R21). -/
theorem Ending.operands_eq {i : Instr} {s t : State W} (h : Ending i s t) :
    t.opa = s.opa ∧ t.opb = s.opb ∧ t.opc = s.opc := by
  cases h with
  | failed c _ _ ht => subst ht; exact ⟨rfl, rfl, rfl⟩
  | derived _ k _ ht => subst ht; exact ⟨rfl, rfl, rfl⟩
  | result _ lo hi _ ht => subst ht; exact ⟨rfl, rfl, rfl⟩

/-- Settles O23: an illegal word sets the code alone, and a command keeps the operands. -/
theorem commandsKeepTheOperands : Obligations.CommandsKeepTheOperands := by
  intro v s t h
  change runWord v s = .next t at h
  rcases runWord_cases v s with ⟨_, _, hrun⟩ | ⟨i, u, _, hrun, _, hend⟩ <;> rw [hrun] at h <;> cases h
  · exact ⟨rfl, rfl, rfl⟩
  · exact hend.operands_eq

/-- A command that fails, and DERIVE, leave the result registers (R22). -/
theorem Ending.results_eq {i : Instr} {s t : State W} (h : Ending i s t) (hi : t.code ≠ .ok ∨ i = .derive) :
    t.resLo = s.resLo ∧ t.resHi = s.resHi := by
  cases h with
  | failed c _ _ ht => subst ht; exact ⟨rfl, rfl⟩
  | derived _ k _ ht => subst ht; exact ⟨rfl, rfl⟩
  | result hres lo hi' _ ht =>
    subst ht
    rcases hi with hne | rfl
    · exact absurd rfl hne
    · cases hres

/-- Every command with a one-word result leaves 0 in `RES_HI` (R22). -/
theorem Ending.resHi_eq_zero {i : Instr} {s t : State W} (h : Ending i s t) (hok : t.code = .ok) (hd : i ≠ .derive)
    (hm : i ≠ .mul) : t.resHi = 0 := by
  cases h with
  | failed c hne _ ht => subst ht; exact absurd hok hne
  | derived hi k _ ht => exact absurd hi hd
  | result _ lo hi' hhi ht => subst ht; exact hhi hm

/-- Settles O24, ending by ending. -/
theorem resultRegistersFollowTheOutcome : Obligations.ResultRegistersFollowTheOutcome :=
  fun _ _ _ h => ⟨(ending_of_exec h).results_eq, (ending_of_exec h).resHi_eq_zero⟩

/-! ## The strategy -/

theorem Ending.strategy_eq {i : Instr} {s t : State W} (h : Ending i s t) : t.strategy = s.strategy := by
  cases h with
  | failed c _ _ ht => subst ht; rfl
  | derived _ k _ ht => subst ht; rfl
  | result _ lo hi _ ht => subst ht; rfl

/-- A host action keeps the strategy, or is a reset and leaves its strap (R31). -/
theorem Performed.strategy_eq_or_reset {a : HostAction W} {s t : State W} (h : Performed s t a) :
    t.strategy = s.strategy ∨ a = .reset t.strategy := by
  cases h with
  | read idx ht => subst ht; exact .inl rfl
  | stored idx v ht => rcases ht with rfl | rfl | rfl <;> exact .inl rfl
  | ignored idx v ht => subst ht; exact .inl rfl
  | illegal idx v why _ _ ht => subst ht; exact .inl rfl
  | command idx v i _ _ _ hend => exact .inl hend.strategy_eq
  | reset strategy ht => subst ht; exact .inr rfl

/-- Settles O19: the number of the word, the reset step, and the host action behind a change. -/
theorem cfgIsTheStrapOfTheLatestReset : Obligations.CfgIsTheStrapOfTheLatestReset := by
  refine ⟨toNat_cfgWord Config.thirteen_le_W, fun s strap rest hp => ⟨_, stepAt_of_reset hp, rfl⟩, ?_⟩
  intro s t h hne
  rcases step_inversion h with ⟨_, rfl⟩ | ⟨a, rest, hp, hperf⟩
  · exact absurd rfl hne
  · rcases hperf.strategy_eq_or_reset with hkept | rfl
    · exact absurd hkept hne
    · exact ⟨rest, hp⟩

/-! ## The key -/

/-- A command keeps the key, or is a DERIVE that ends with OK and commits the derived key (R34). -/
theorem Ending.key_eq_or_derived {i : Instr} {s t : State W} (h : Ending i s t) :
    t.key = s.key ∨ (i = .derive ∧ t.code = .ok ∧
      ∃ k, deriveKeys W s.strategy s.opa.toNat s.opb.toNat = .ok k ∧ t.key = keyWords s.opa s.opb k) := by
  cases h with
  | failed c _ _ ht => subst ht; exact .inl rfl
  | derived hi k hk ht => subst ht; exact .inr ⟨hi, rfl, k, hk, rfl⟩
  | result _ lo hi _ ht => subst ht; exact .inl rfl

/-- Only index 0 is `CMD` (R51). -/
theorem eq_zero_of_ofIndex_eq_cmd {idx : BitVec 4} (h : Slot.ofIndex idx = .cmd) : idx = 0 := by
  rw [← slot_index_ofIndex idx, h]
  rfl

/-- A host action keeps the key, is a reset, or is a write of the word of DERIVE to `CMD` that commits a key (R34). -/
theorem Performed.key_cases {a : HostAction W} {s t : State W} (h : Performed s t a) :
    t.key = s.key ∨ (∃ strap, a = .reset strap ∧ t.key = (State.resetWith strap W).key) ∨
      ∃ v k, a = .write 0 v ∧ decode v = .command .derive ∧ t.code = .ok ∧
        deriveKeys W s.strategy s.opa.toNat s.opb.toNat = .ok k ∧ t.key = keyWords s.opa s.opb k := by
  cases h with
  | read idx ht => subst ht; exact .inl rfl
  | stored idx v ht => rcases ht with rfl | rfl | rfl <;> exact .inl rfl
  | ignored idx v ht => subst ht; exact .inl rfl
  | illegal idx v why _ _ ht => subst ht; exact .inl rfl
  | command idx v i hidx hv _ hend =>
    obtain rfl := eq_zero_of_ofIndex_eq_cmd hidx
    rcases hend.key_eq_or_derived with hkept | ⟨rfl, hok, k, hk, hkey⟩
    · exact .inl hkept
    · exact .inr (.inr ⟨v, k, rfl, hv, hok, hk, hkey⟩)
  | reset strap ht => subst ht; exact .inr (.inl ⟨strap, rfl, rfl⟩)

/-- Settles O26: an idle step keeps the key, and a host action is one of `Performed.key_cases`. -/
theorem keyChangesOnlyByResetOrDerive : Obligations.KeyChangesOnlyByResetOrDerive := by
  intro s t h hne
  rcases step_inversion h with ⟨_, rfl⟩ | ⟨a, rest, hp, hperf⟩
  · exact absurd rfl hne
  · rcases hperf.key_cases with hkept | ⟨strap, rfl, hkey⟩ | ⟨v, k, rfl, hv, hok, hk, hkey⟩
    · exact absurd hkept hne
    · exact .inl ⟨strap, rest, hp, hkey⟩
    · exact .inr ⟨v, rest, k, hp, hv, hok, hk, hkey⟩

end Sys2Proof.Machine

/-! PROOF. A command's outcome is a function of the registers its row of R23 lists as read (spec 10_state.md R23,
44_modexp_transforms.md R147). -/

namespace Sys2Proof.Machine

variable {W : Nat}

/-- A command ends in the same way from two states: with the same failure, or with the same words written. -/
inductive SameEnding (i : Instr) (s₁ s₂ t₁ t₂ : State W) : Prop where
  | failed (c : Code) (hne : c ≠ .ok) (h₁ : t₁ = s₁.withCode c) (h₂ : t₂ = s₂.withCode c)
  | derived (hi : i = .derive) (k : KeyState W) (h₁ : t₁ = (s₁.withKey k).withCode .ok)
      (h₂ : t₂ = (s₂.withKey k).withCode .ok)
  | result (hi : i ≠ .derive) (lo hi' : Word W) (h₁ : t₁ = (s₁.withRes lo hi').withCode .ok)
      (h₂ : t₂ = (s₂.withRes lo hi').withCode .ok)

/-- What a command answers in two states, and that it ends there in the same way. -/
def EndsAlike (i : Instr) (s₁ s₂ : State W) : Prop :=
  ∃ t₁ t₂, execAt i s₁ = .next t₁ ∧ execAt i s₂ = .next t₂ ∧ SameEnding i s₁ s₂ t₁ t₂

theorem EndsAlike.of_fail {i : Instr} {s₁ s₂ : State W} (c : Code) (hne : c ≠ .ok) (h₁ : execAt i s₁ = fail c s₁)
    (h₂ : execAt i s₂ = fail c s₂) : EndsAlike i s₁ s₂ :=
  ⟨_, _, h₁, h₂, .failed c hne rfl rfl⟩

theorem EndsAlike.of_completeWith {i : Instr} {s₁ s₂ : State W} (hi : i ≠ .derive) (v : Word W)
    (h₁ : execAt i s₁ = completeWith v s₁) (h₂ : execAt i s₂ = completeWith v s₂) : EndsAlike i s₁ s₂ :=
  ⟨_, _, h₁, h₂, .result hi v 0 rfl rfl⟩

/-- The sequencer rejects with a code that is not OK (R129). -/
theorem deriveKeys_error_ne_ok {w p q : Nat} {strategy : Strategy} {c : Code}
    (h : deriveKeys w strategy p q = .error c) : c ≠ .ok := by
  rcases deriveKeys_cases w strategy p q with
    ⟨_, hk⟩ | ⟨_, _, _, hk⟩ | ⟨_, _, _, _, _, hk⟩ | ⟨_, _, _, _, _, hk⟩ <;>
    rw [hk] at h <;> cases h <;> decide

theorem execAt_findexp_of_scan {s : State W} {x : Nat} (h : scanExponent s.opa.toNat = .ok x) :
    execAt .findexp s = completeWith (Word.low x) s := by
  show execFindexp s = _
  rw [execFindexp, h]

/-- Noninterference: from two states that agree on the registers its row lists as read, a command ends alike. -/
theorem endsAlike_of_agreeOnReads {i : Instr} {s₁ s₂ : State W} (h : AgreeOnReads s₁ s₂ i) : EndsAlike i s₁ s₂ := by
  cases i with
  | derive =>
    obtain ⟨ha, hb, hs⟩ := h
    cases hk : deriveKeys W s₁.strategy s₁.opa.toNat s₁.opb.toNat with
    | error c =>
      have hk₂ : deriveKeys W s₂.strategy s₂.opa.toNat s₂.opb.toNat = .error c := by rw [← hs, ← ha, ← hb, hk]
      exact .of_fail c (deriveKeys_error_ne_ok hk) (execAt_derive_error hk) (execAt_derive_error hk₂)
    | ok k =>
      have hk₂ : deriveKeys W s₂.strategy s₂.opa.toNat s₂.opb.toNat = .ok k := by rw [← hs, ← ha, ← hb, hk]
      refine ⟨_, _, execAt_derive_ok hk, execAt_derive_ok hk₂, .derived rfl (keyWords s₁.opa s₁.opb k) rfl ?_⟩
      rw [ha, hb]
      rfl
  | encrypt =>
    obtain ⟨ha, he, hn⟩ := h
    exact .of_completeWith nofun (powerWord s₁.opa s₁.key.e s₁.key.n) rfl (by rw [ha, he, hn]; rfl)
  | decrypt =>
    obtain ⟨ha, hkey⟩ := h
    exact .of_completeWith nofun (decryptWord s₁.opa s₁.key) rfl (by rw [ha, hkey]; rfl)
  | modexp =>
    obtain ⟨ha, hb, hc⟩ := h
    by_cases hzero : s₁.opc.toNat = 0
    · exact .of_fail .zeroModulus nofun (execAt_modexp_zero hzero) (execAt_modexp_zero (hc ▸ hzero))
    · refine .of_completeWith nofun (powerWord s₁.opa s₁.opb s₁.opc) (if_neg hzero) ?_
      rw [hc] at hzero
      rw [ha, hb, hc]
      exact if_neg hzero
  | modinv =>
    obtain ⟨ha, hb⟩ := h
    by_cases hzero : s₁.opb.toNat = 0
    · exact .of_fail .zeroModulus nofun (execAt_modinv_zero hzero) (execAt_modinv_zero (hb ▸ hzero))
    · refine .of_completeWith nofun (inverseWord (modInv s₁.opa.toNat s₁.opb.toNat)) (if_neg hzero) ?_
      rw [hb] at hzero
      rw [ha, hb]
      exact if_neg hzero
  | mul =>
    obtain ⟨ha, hb⟩ := h
    have hmul (s : State W) : execAt .mul s = completeProduct (mulFull s.opa.toNat s.opb.toNat) s := rfl
    exact ⟨_, _, hmul s₁, hmul s₂, .result nofun _ _ rfl (by rw [ha, hb])⟩
  | gcd =>
    obtain ⟨ha, hb⟩ := h
    exact .of_completeWith nofun (Word.low (euclid s₁.opa.toNat s₁.opb.toNat)) rfl (by rw [ha, hb]; rfl)
  | coprime =>
    obtain ⟨ha, hb⟩ := h
    exact .of_completeWith nofun (testWord (coprime s₁.opa.toNat s₁.opb.toNat)) rfl (by rw [ha, hb]; rfl)
  | isprime =>
    have ha : s₁.opa = s₂.opa := h
    exact .of_completeWith nofun (testWord (isPrime s₁.opa.toNat)) rfl (by rw [ha]; rfl)
  | findexp =>
    have ha : s₁.opa = s₂.opa := h
    rcases scanExponent_cases s₁.opa.toNat with ⟨hle, _⟩ | ⟨_, x, _, hscan⟩
    · exact .of_fail .degeneratePhi nofun (execAt_findexp_degenerate hle) (execAt_findexp_degenerate (ha ▸ hle))
    · exact .of_completeWith nofun (Word.low x) (execAt_findexp_of_scan hscan) (execAt_findexp_of_scan (ha ▸ hscan))

/-- Settles O25: equal reads make the two runs end alike, and each ending says what it writes. -/
theorem commandsDependOnlyOnTheirOperands : Obligations.CommandsDependOnlyOnTheirOperands := by
  intro i s₁ s₂ t₁ t₂ hagree h₁ h₂
  rw [exec_eq_execAt] at h₁ h₂
  obtain ⟨u₁, u₂, hu₁, hu₂, hend⟩ := endsAlike_of_agreeOnReads hagree
  rw [hu₁] at h₁
  rw [hu₂] at h₂
  cases h₁
  cases h₂
  cases hend with
  | failed c hne h₁ h₂ =>
    subst h₁ h₂
    exact ⟨rfl, fun hok => absurd hok hne, fun hok => absurd hok hne⟩
  | derived hi k h₁ h₂ =>
    subst h₁ h₂
    exact ⟨rfl, fun _ hne => absurd hi hne, fun _ _ => ⟨rfl, rfl⟩⟩
  | result hi lo hi' h₁ h₂ =>
    subst h₁ h₂
    exact ⟨rfl, fun _ _ => ⟨rfl, rfl, rfl⟩, fun _ hderive => absurd hderive hi⟩

end Sys2Proof.Machine

/-! PROOF. What a step does when the oldest action is a read, a write to an operand register, or a write to a read-only
or reserved slot, and the command a write to `CMD` runs (spec 20_memory.md R52 to R56, 30_encoding.md R70). -/

namespace Sys2Proof.Machine

variable {W : Nat}

/-! ## The registers apart from the port's record -/

theorem SameRegisters.refl (s : State W) : SameRegisters s s :=
  ⟨rfl, rfl, rfl, rfl, rfl, rfl, rfl, rfl⟩

theorem SameRegisters.trans {s t u : State W} (h₁ : SameRegisters s t) (h₂ : SameRegisters t u) :
    SameRegisters s u := by
  obtain ⟨hcode, hopa, hopb, hopc, hlo, hhi, hstrategy, hkey⟩ := h₁
  obtain ⟨hcode', hopa', hopb', hopc', hlo', hhi', hstrategy', hkey'⟩ := h₂
  exact ⟨hcode.trans hcode', hopa.trans hopa', hopb.trans hopb', hopc.trans hopc', hlo.trans hlo', hhi.trans hhi',
    hstrategy.trans hstrategy', hkey.trans hkey'⟩

/-- The queue and the reply are the model's own, and no registers of R20. -/
theorem sameRegisters_withReply_withPending (s : State W) (r : Reply W) (l : List (HostAction W)) :
    SameRegisters ((s.withPending l).withReply r) s :=
  SameRegisters.refl s

/-! ## Reads -/

/-- Every index is that of a slot, so that a claim about an index is one about the sixteen slots (R51). -/
theorem exists_slot_index_eq (idx : BitVec 4) : ∃ sl : Slot, sl.index = idx :=
  ⟨_, slot_index_ofIndex idx⟩

@[simp] theorem hostRead_index (sl : Slot) (s : State W) : hostRead sl.index s = readSlot s sl := by
  rw [hostRead, slot_ofIndex_index]

/-- A read shows registers only, not the port's record (R51, R52). -/
theorem hostRead_congr {s t : State W} (h : SameRegisters s t) (idx : BitVec 4) : hostRead idx s = hostRead idx t := by
  obtain ⟨hcode, hopa, hopb, hopc, hlo, hhi, hstrategy, hkey⟩ := h
  obtain ⟨sl, rfl⟩ := exists_slot_index_eq idx
  cases sl <;> simp [readSlot, statusWord, cfgWord, *]

theorem hostRead_of_reserved {idx : BitVec 4} (h : 14 ≤ idx.toNat) (s : State W) : hostRead idx s = 0 := by
  have hidx : idx = Slot.reserved14.index ∨ idx = Slot.reserved15.index := by
    revert idx; decide
  rcases hidx with rfl | rfl <;> rfl

/-- The step that takes a read answers the word and keeps every register (R52). -/
theorem stepAt_of_read {s : State W} {idx : BitVec 4} {rest : List (HostAction W)}
    (h : s.pending = .read idx :: rest) :
    ∃ t, stepAt s = .next t ∧ SameRegisters t s ∧ t.pending = rest ∧ t.reply = .data (hostRead idx s) :=
  ⟨_, stepAt_of_pending h, sameRegisters_withReply_withPending s _ rest, rfl, rfl⟩

/-- Settles O12: the word read is a function of the registers, which the first read keeps for the second. -/
theorem readReturnsTheSlotAndChangesNothing : Obligations.ReadReturnsTheSlotAndChangesNothing := by
  intro s idx rest hp
  obtain ⟨t, ht, hsame, hpending, hreply⟩ := stepAt_of_read hp
  refine ⟨t, ht, hsame, hpending, hreply.trans (congrArg Reply.data ?_), fun rest' hrest => ?_⟩
  · obtain ⟨sl, rfl⟩ := exists_slot_index_eq idx
    rw [hostRead_index]
    cases sl <;> rfl
  · obtain ⟨u, hu, husame, _, hureply⟩ := stepAt_of_read (hpending.trans hrest)
    exact ⟨u, hu, by rw [hureply, hreply, hostRead_congr hsame], husame.trans hsame⟩

/-! ## Writes that run no command -/

/-- The step that takes a write performs it on the state without the action. -/
theorem stepAt_of_write {s : State W} {idx : BitVec 4} {v : Word W} {rest : List (HostAction W)}
    (h : s.pending = .write idx v :: rest) :
    stepAt s = hostWrite idx v ((s.withPending rest).withReply .ack) :=
  stepAt_of_pending h

/-- Settles O13: the write is the update of the one operand register. -/
theorem operandWriteStoresAndNothingElse : Obligations.OperandWriteStoresAndNothingElse := by
  intro s v rest
  refine ⟨fun hp => ?_, fun hp => ?_, fun hp => ?_⟩
  · exact ⟨_, stepAt_of_write hp, SameRegisters.refl (s.withOpa v)⟩
  · exact ⟨_, stepAt_of_write hp, SameRegisters.refl (s.withOpb v)⟩
  · exact ⟨_, stepAt_of_write hp, SameRegisters.refl (s.withOpc v)⟩

/-- A write to a read-only or reserved slot is ignored (R55, R56). -/
theorem hostWrite_of_ignored {idx : BitVec 4} (h : idx.toNat = 1 ∨ 5 ≤ idx.toNat) (v : Word W) (s : State W) :
    hostWrite idx v s = .next s := by
  obtain ⟨sl, rfl⟩ := exists_slot_index_eq idx
  rw [hostWrite, slot_ofIndex_index]
  cases sl with
  | cmd | opa | opb | opc => exact absurd h (by decide)
  | status | resLo | resHi | cfg | keyP | keyQ | keyN | keyPhi | keyE | keyD | reserved14 | reserved15 => rfl

theorem stepAt_of_ignoredWrite {s : State W} {idx : BitVec 4} {v : Word W} {rest : List (HostAction W)}
    (h : s.pending = .write idx v :: rest) (hidx : idx.toNat = 1 ∨ 5 ≤ idx.toNat) :
    ∃ t, stepAt s = .next t ∧ SameRegisters t s :=
  ⟨_, (stepAt_of_write h).trans (hostWrite_of_ignored hidx v _), sameRegisters_withReply_withPending s _ rest⟩

/-- Settles O14: the ten read-only indices are among those whose writes are ignored. -/
theorem readOnlyWriteIsIgnored : Obligations.ReadOnlyWriteIsIgnored := by
  intro s idx v rest hp hidx
  have hignored : idx.toNat = 1 ∨ 5 ≤ idx.toNat := by
    simp only [List.mem_cons, List.not_mem_nil, or_false] at hidx
    omega
  exact stepAt_of_ignoredWrite hp hignored

/-- Settles O15: indices 14 and 15 read 0, and their writes are ignored. -/
theorem reservedSlotsHoldNothing : Obligations.ReservedSlotsHoldNothing := by
  intro s idx v rest hidx
  refine ⟨fun hp => ?_, fun hp => stepAt_of_ignoredWrite hp (by omega)⟩
  obtain ⟨t, ht, hsame, _, hreply⟩ := stepAt_of_read hp
  rw [hostRead_of_reserved (by omega)] at hreply
  exact ⟨t, ht, hreply, hsame⟩

/-! ## Writes to `CMD` -/

/-- Settles O6: the step is `runWord`, and on a word that spells a command that is the command. -/
theorem stepRunsTheDecodedCommand : Obligations.StepRunsTheDecodedCommand := by
  intro s v rest i hp hv
  rw [step_eq_stepAt, stepAt_of_commandWrite hp, runWord_of_command hv, exec_eq_execAt]

/-- A row of the opcode table is read by the command decoder (R78). -/
theorem decodeTableWord_eq_some {nbits w : Nat} {i : Instr} :
    decodeTableWord nbits w = some i ↔ decode (tableWord nbits w : Word) = .command i := by
  rw [decodeTableWord]
  cases decode (tableWord nbits w : Word) <;> simp

/-- Settles O7: placing a table word is writing it to `CMD` before the actions that wait already. -/
theorem stepRunsTheFetchedWord : Obligations.StepRunsTheFetchedWord := by
  intro s nbits w i hi
  have hpending : (s.withFetchWord nbits w).pending = .write 0 (tableWord nbits w) :: s.pending := rfl
  exact stepRunsTheDecodedCommand _ _ _ i hpending (decodeTableWord_eq_some.1 hi)

end Sys2Proof.Machine

/-! PROOF. The command decoder at the reference width, and what the host writes (spec 30_encoding.md R70 to R73, R76,
R78, 20_memory.md R67). -/

namespace Sys2Proof

variable {W : Nat}

/-! ## Command words -/

/-- Settles O2: the reference width has room for an opcode. -/
theorem decodeIsInverseOfEncode : Obligations.DecodeIsInverseOfEncode :=
  fun _ _ => decode_eq_command (by decide)

/-- Settles O1: below 16 the opcode of a word is the word, so the table is looked up at the word's own number. -/
theorem decodeIsTheOpcodeMap : Obligations.DecodeIsTheOpcodeMap := by
  intro v
  rw [decode, zeroField_eq]
  by_cases hzero : v.toNat / 16 = 0
  · have hop : (opField v).toNat = v.toNat := by
      rw [toNat_opField]
      omega
    rw [if_neg (not_not.2 hzero), if_neg (not_not.2 hzero), ← hop]
    rfl
  · rw [if_pos hzero, if_pos hzero]

/-- The word of a command is its opcode as a number (R72). -/
theorem low_opcode (hW : 4 ≤ W) (i : Instr) : (Word.low (opcode i).toNat : Word W) = encode i := by
  rw [← toNat_encode hW, Word.low_toNat]

theorem tableWord_of_lt {w : Nat} (h : w < 2 ^ 32) : (tableWord 32 w : Word W) = Word.low w := by
  rw [tableWord, Nat.mod_eq_of_lt h]

/-- The number of a command's opcode is its row's word (R72, R78). -/
theorem decodeTableWord_opcode (i : Instr) : decodeTableWord 32 (opcode i).toNat = some i := by
  have hfits : (opcode i).toNat < 2 ^ 32 := (opcode i).isLt.trans (by decide)
  rw [decodeTableWord, tableWord_of_lt hfits, low_opcode (by decide), decode_eq_command (by decide) |>.2 rfl]

/-- A row's word with a bit above bit 3, or with an unassigned low nibble, is no command (R73). -/
theorem decodeTableWord_eq_none {w : Nat} (hfits : w < 2 ^ 32) (h : w / 16 ≠ 0 ∨ w % 16 = 0 ∨ 11 ≤ w % 16) :
    decodeTableWord 32 w = none := by
  have hw : (Word.low w : Word).toNat = w := Word.toNat_low_of_lt hfits
  obtain ⟨why, hwhy⟩ := exists_decode_eq_illegal (v := (Word.low w : Word)) (by rwa [hw])
  rw [decodeTableWord, tableWord_of_lt hfits, hwhy]

/-- Settles O3: the first ten words are the commands' opcodes, and the last six are illegal. -/
theorem tableWordsDecode : Obligations.TableWordsDecode := by
  refine ⟨decodeTableWord_opcode .derive, decodeTableWord_opcode .encrypt, decodeTableWord_opcode .decrypt,
    decodeTableWord_opcode .modexp, decodeTableWord_opcode .modinv, decodeTableWord_opcode .mul,
    decodeTableWord_opcode .gcd, decodeTableWord_opcode .coprime, decodeTableWord_opcode .isprime,
    decodeTableWord_opcode .findexp, ?_, ?_, ?_, ?_, ?_, ?_⟩ <;>
  exact decodeTableWord_eq_none (by decide) (by decide)

/-! ## Statements, host actions and port accesses -/

@[simp] theorem strategy_ofBit_bit (strategy : Strategy) : Strategy.ofBit strategy.bit = strategy := by
  cases strategy <;> rfl

@[simp] theorem strategy_bit_ofBit (b : BitVec 1) : (Strategy.ofBit b).bit = b := by
  revert b; decide

/-- A well-formed statement is the one its host action is written as (R76). -/
theorem toStatement_toAction {st : Statement} (h : st.wf W = true) : (st.toAction W).toStatement = st := by
  cases st with
  | reset s =>
    have hs : s < 2 ^ 1 := Nat.lt_succ_of_le (of_decide_eq_true h)
    rw [Statement.toAction, HostAction.toStatement, strategy_bit_ofBit, BitVec.toNat_ofNat, Nat.mod_eq_of_lt hs]
  | wr name value =>
    have hvalue : value < 2 ^ W := of_decide_eq_true (Bool.and_eq_true_iff.1 h).2
    rw [Statement.toAction, HostAction.toStatement, Machine.slot_ofIndex_index, Word.toNat_low_of_lt hvalue]
  | rd name => rw [Statement.toAction, HostAction.toStatement, Machine.slot_ofIndex_index]

/-- A host action is the meaning of the statement it is written as (R76). -/
theorem toAction_toStatement (a : HostAction W) : a.toStatement.toAction W = a := by
  cases a with
  | reset strategy =>
    rw [HostAction.toStatement, Statement.toAction, BitVec.ofNat_toNat, BitVec.setWidth_eq, strategy_ofBit_bit]
  | write idx v => rw [HostAction.toStatement, Statement.toAction, Machine.slot_index_ofIndex, Word.low_toNat]
  | read idx => rw [HostAction.toStatement, Statement.toAction, Machine.slot_index_ofIndex]

/-- The access a host action puts on the port is that action (R67). -/
theorem toAction_of_toPort {a : HostAction W} {p : PortAccess W} (h : a.toPort = some p) : p.toAction = a := by
  cases a with
  | read idx => cases h; rfl
  | write idx v => cases h; rfl
  | reset strategy => cases h

/-- Settles O4: the three ways back, each by the constructors of what is written. -/
theorem hostNotationRoundTrip : Obligations.HostNotationRoundTrip :=
  ⟨fun _ => toStatement_toAction, toAction_toStatement, fun _ _ => toAction_of_toPort⟩

end Sys2Proof

/-! PROOF. Running a pseudo-instruction, and an illegal word, at the reference width (spec 30_encoding.md R73, R77,
60_exceptions.md R151). -/

namespace Sys2Proof.Machine

variable {W : Nat}

/-- Settles O8: the illegal words among the writes to `CMD` at every width. -/
theorem illegalWordSetsOnlyTheCode : Obligations.IllegalWordSetsOnlyTheCode := by
  intro s v rest hp
  obtain ⟨-, hillegal, -⟩ := commandWritesAtEveryWidth Config.W Config.thirteen_le_W s v rest hp
  exact hillegal

/-! ## Runs of several steps -/

/-- A run goes on from where its first write leads (R62). -/
theorem steps_of_write {s t : State W} {idx : BitVec 4} {v : Word W} {rest : List (HostAction W)}
    (h : s.pending = .write idx v :: rest) (ht : hostWrite idx v ((s.withPending rest).withReply .ack) = .next t)
    (k : Nat) : steps (k + 1) s = steps k t := by
  rw [steps, stepAt_of_write h, ht]

theorem steps_one (s : State W) : steps 1 s = stepAt s := by
  rw [steps]
  cases stepAt s <;> rfl

/-- The operand writes of a pseudo-instruction leave the operands in place and change no other register (R53, R77). -/
theorem steps_operandWrites {s : State W} {ops : List Nat} {rest : List (HostAction W)}
    (h : s.pending = (operandWrites ops).map (Statement.toAction W) ++ rest) (k : Nat) :
    ∃ r, steps (k + (operandWrites ops).length) s =
      steps k (((withOperands s ops).withPending rest).withReply r) := by
  match ops with
  | [] =>
    subst h
    exact ⟨s.reply, rfl⟩
  | [_] => exact ⟨.ack, steps_of_write h rfl k⟩
  | [_, _] => exact ⟨.ack, (steps_of_write h rfl (k + 1)).trans (steps_of_write rfl rfl k)⟩
  | _ :: _ :: _ :: _ =>
    exact ⟨.ack, (steps_of_write h rfl (k + 2)).trans
      ((steps_of_write rfl rfl (k + 1)).trans (steps_of_write rfl rfl k))⟩

/-- The step that takes the write of a command's opcode to `CMD` is that command (R54, R72). -/
theorem stepAt_of_opcodeWrite (hW : 4 ≤ W) {s : State W} {i : Instr} {rest : List (HostAction W)}
    (h : s.pending = .write 0 (Word.low (opcode i).toNat) :: rest) :
    stepAt s = execAt i { s with pending := rest, reply := .ack } := by
  rw [stepAt_of_commandWrite h, low_opcode hW, runWord_of_command ((decode_eq_command hW).2 rfl)]

/-- Running the expansion of a pseudo-instruction is running its command on its operands (R77). -/
theorem steps_expand (hW : 4 ≤ W) {p : Pseudo} {s : State W} {rest : List (HostAction W)}
    (h : s.pending = p.expand.map (Statement.toAction W) ++ rest) :
    steps p.expand.length s = execAt p.command { withOperands s p.operands with pending := rest, reply := .ack } := by
  have hwrites : s.pending = (operandWrites p.operands).map (Statement.toAction W) ++
      .write 0 (Word.low (opcode p.command).toNat) :: rest := by
    rw [h, Pseudo.expand, List.map_append, List.append_assoc]
    rfl
  have hlength : p.expand.length = 1 + (operandWrites p.operands).length := by
    rw [Pseudo.expand, List.length_append, Nat.add_comm]
    rfl
  obtain ⟨r, hr⟩ := steps_operandWrites hwrites 1
  rw [hlength, hr, steps_one]
  exact stepAt_of_opcodeWrite hW rfl

/-- Settles O5: the expansion writes the operands and then the opcode; a literal too wide for a register would be cut
on both sides alike, so well-formedness is not needed. -/
theorem pseudoExpansionRunsTheCommand : Obligations.PseudoExpansionRunsTheCommand :=
  fun p _ _ _ hp => (steps_expand (by decide) hp).trans (exec_eq_execAt p.command _).symm

end Sys2Proof.Machine

/-! PROOF. The multiplier and the primality checker at the reference width (spec 40_multiply_primality.md). -/

namespace Sys2Proof.Machine

/-- Settles O27: the rule of MUL at every width, `execAt_mul`, read at the reference width. -/
theorem mulGivesTheExactProduct : Obligations.MulGivesTheExactProduct := by
  intro s
  rw [exec_eq_execAt]
  exact execAt_mul s

/-- The checker says no exactly when there is a divisor to report or the number is below the first prime (R93): a
number with a divisor has one up to its square root. -/
theorem isPrime_eq_false_iff_divisor {num : Nat} :
    isPrime num = false ↔ num ≤ 1 ∨ ∃ i, 2 ≤ i ∧ i * i ≤ num ∧ num % i = 0 := by
  have hle : ¬ 2 ≤ num ↔ num ≤ 1 := by omega
  rw [isPrime_eq_false, Nat.prime_def_le_sqrt, Classical.not_and_iff_not_or_not, hle]
  simp only [Nat.le_sqrt, Nat.dvd_iff_mod_eq_zero, not_forall, not_not, exists_prop]

/-- Settles O28: the result is the word of `isPrime`, whose two values `isPrime_eq_false_iff_divisor` and
`isPrime_eq_true` describe. -/
theorem isprimeDecidesPrimality : Obligations.IsprimeDecidesPrimality := by
  have hW : 0 < Config.W := by decide
  intro s
  refine ⟨testWord (isPrime s.opa.toNat), rfl, ?_, ?_, ?_⟩
  · cases isPrime s.opa.toNat
    · exact .inl rfl
    · exact .inr rfl
  · exact (testWord_eq_zero hW).trans isPrime_eq_false_iff_divisor
  · exact (testWord_eq_one hW).trans isPrime_eq_true

end Sys2Proof.Machine

/-! PROOF. The gcd comparator and the public-exponent scanner at the reference width (spec
41_gcd_exponent_search.md). -/

namespace Sys2Proof.Machine

variable {W : Nat}

/-! ## GCD -/

/-- The unit satisfies the recursion of R100: the fuel of its loop is always enough. -/
theorem euclid_rec (a b : Nat) : euclid a b = if b = 0 then a else euclid b (a % b) := by
  rw [euclid_eq_gcd, euclid_eq_gcd]
  split
  next hb => rw [hb, Nat.gcd_zero_right]
  next => rw [Nat.gcd_comm a, Nat.gcd_rec, Nat.gcd_comm]

/-- Settles O30: the rule of GCD at every width, `execAt_gcd`, read at the reference width. -/
theorem gcdIsTheGreatestCommonDivisor : Obligations.GcdIsTheGreatestCommonDivisor := by
  intro s
  rw [exec_eq_execAt]
  exact execAt_gcd s

/-- Settles O29: the recursion is `euclid_rec`, and the number the command leaves is the unit's. -/
theorem gcdRunsTheEuclideanRecursion : Obligations.GcdRunsTheEuclideanRecursion := by
  refine ⟨euclid_rec, fun s => ?_⟩
  rw [euclid_eq_gcd]
  exact gcdIsTheGreatestCommonDivisor s

/-! ## COPRIME -/

/-- The word of the comparator, by the greatest common divisor (R103). -/
theorem testWord_coprime (a b : Nat) : (testWord (coprime a b) : Word W) = if Nat.gcd a b = 1 then 1 else 0 := by
  simp only [testWord, coprime_eq_true, Nat.coprime_iff_gcd_eq_one]

/-- Settles O31: the result is the word of the comparator. -/
theorem coprimeTestsTheGcd : Obligations.CoprimeTestsTheGcd := by
  intro s
  rw [← testWord_coprime]
  rfl

/-! ## FINDEXP -/

/-- Settles O32: the two branches of FINDEXP at every width, read at the reference width. -/
theorem findexpGivesTheLeastExponent : Obligations.FindexpGivesTheLeastExponent := by
  intro s
  rw [exec_eq_execAt]
  exact ⟨execAt_findexp_degenerate, execAt_findexp⟩

section LeastCoprime

variable {phi x : Nat} (hx : 2 ≤ x) (hcop : Nat.Coprime x phi) (hleast : ∀ y, 2 ≤ y → y < x → ¬ Nat.Coprime y phi)

include hx hcop hleast in
/-- The least number from 2 on that is coprime to `phi` is prime (R106): its least factor is coprime to `phi` too. -/
theorem prime_of_least_coprime : x.Prime := by
  have hfactor : Nat.Coprime x.minFac phi := hcop.coprime_dvd_left x.minFac_dvd
  have htwo : 2 ≤ x.minFac := (Nat.minFac_prime (by omega)).two_le
  have hge : x ≤ x.minFac := Nat.le_of_not_lt fun hlt => hleast _ htwo hlt hfactor
  exact Nat.prime_def_minFac.2 ⟨hx, le_antisymm (Nat.minFac_le (by omega)) hge⟩

include hleast in
/-- No candidate below `x` is coprime to `phi`, so every prime below `x` divides `phi` (R106). -/
theorem dvd_of_prime_of_lt_least_coprime {p : Nat} (hp : p.Prime) (hlt : p < x) : p ∣ phi := by
  by_contra hndvd
  exact hleast p hp.two_le hlt (hp.coprime_iff_not_dvd.2 hndvd)

end LeastCoprime

/-- Settles O33: the least coprime candidate is prime, and a prime is coprime to what it does not divide. -/
theorem findexpGivesTheSmallestNondivisorPrime : Obligations.FindexpGivesTheSmallestNondivisorPrime := by
  intro s h
  obtain ⟨-, hfound⟩ := findexpGivesTheLeastExponent s
  obtain ⟨r, hexec, htwo, -, hcop, hleast⟩ := hfound h
  have hprime : r.toNat.Prime := prime_of_least_coprime htwo hcop hleast
  exact ⟨r, hexec, hprime, hprime.coprime_iff_not_dvd.1 hcop, fun _ => dvd_of_prime_of_lt_least_coprime hleast⟩

end Sys2Proof.Machine

/-! PROOF. The modular-inverse search at the reference width (spec 42_inverse_search.md). -/

namespace Sys2Proof.Machine

variable {W : Nat}

/-- Settles O34: the two branches of MODINV at every width, read at the reference width. -/
theorem modinvGivesTheFirstInverse : Obligations.ModinvGivesTheFirstInverse := by
  intro s
  rw [exec_eq_execAt]
  exact ⟨execAt_modinv_zero, execAt_modinv⟩

/-- When the sentinel is left (R112 (a), (f), (g)): the search range is empty for modulus 1, and otherwise only a number
coprime to the modulus has an inverse. -/
theorem inverseWord_eq_sent_iff_not_coprime {a m : Nat} (hpos : 1 ≤ m) (hm : m < 2 ^ W) :
    (inverseWord (modInv a m) : Word W) = Word.sent ↔ m = 1 ∨ Nat.gcd a m ≠ 1 := by
  have hone : m ≤ 1 ↔ m = 1 := by omega
  rw [inverseWord_eq_sent hm, modInv_eq_none_iff, hone, Nat.coprime_iff_gcd_eq_one]

/-- A word of the search that is not the sentinel is the one inverse below the modulus (R112 (d), (e), (g)). -/
theorem unique_inverse_of_inverseWord_ne_sent {a m : Nat} (hm : m < 2 ^ W)
    (hne : (inverseWord (modInv a m) : Word W) ≠ Word.sent) :
    let r : Word W := inverseWord (modInv a m)
    a * r.toNat % m = 1 ∧ ∀ y, y < m → a * y % m = 1 → y = r.toNat := by
  rcases toNat_inverseWord_modInv (a := a) hm with ⟨-, hlt, hinv, -⟩ | ⟨hsent, -⟩
  · exact ⟨hinv, fun y hy hay => inverse_unique hy hlt hay hinv⟩
  · exact absurd (BitVec.eq_of_toNat_eq (hsent.trans Word.toNat_sent.symm)) hne

/-- Settles O35: the word left is that of the search, the sentinel or the one inverse. -/
theorem modinvFindsAnInverseIffThereIsOne : Obligations.ModinvFindsAnInverseIffThereIsOne := fun s hpos =>
  ⟨inverseWord (modInv s.opa.toNat s.opb.toNat), if_neg (Nat.ne_of_gt hpos),
    inverseWord_eq_sent_iff_not_coprime hpos s.opb.isLt, unique_inverse_of_inverseWord_ne_sent s.opb.isLt⟩

end Sys2Proof.Machine

/-! PROOF. Key derivation at the reference width (spec 43_derive_keys.md). -/

namespace Sys2Proof.Machine

variable {W : Nat}

/-- Settles O43: the three failing branches of DERIVE at every width, read at the reference width. -/
theorem deriveFailsInOrder : Obligations.DeriveFailsInOrder := by
  intro s
  rw [exec_eq_execAt]
  obtain ⟨hinvalid, hprimes⟩ := deriveAtEveryWidth Config.W Config.thirteen_le_W s
  refine ⟨hinvalid, fun hp hq => ?_, fun hp hq hfit => ?_⟩
  · obtain ⟨hoverflow, -⟩ := hprimes hp hq
    exact hoverflow
  · obtain ⟨-, hfits⟩ := hprimes hp hq
    obtain ⟨hdegenerate, -⟩ := hfits hfit
    exact hdegenerate

/-- The committing branch of DERIVE at every width, read at the reference width: the two operands as they are, beside
words that make a consistent key (R127). -/
theorem exec_derive_commits {s : State} (hp : s.opa.toNat.Prime) (hq : s.opb.toNat.Prime)
    (hfit : s.opa.toNat * s.opb.toNat < 2 ^ Config.W)
    (haccept : s.strategy = .fixedExponent17 ∨ 3 ≤ (s.opa.toNat - 1) * (s.opb.toNat - 1)) :
    ∃ n phi e d : Word,
      exec .derive s =
        .next { s with key := { p := s.opa, q := s.opb, n := n, phi := phi, e := e, d := d }, code := .ok } ∧
      KeyConsistent s.strategy { p := s.opa, q := s.opb, n := n, phi := phi, e := e, d := d } ∧
      (s.strategy = .searchSmallestCoprime → ∀ y, 2 ≤ y → y < e.toNat → Nat.gcd y phi.toNat ≠ 1) := by
  obtain ⟨-, hprimes⟩ := deriveAtEveryWidth Config.W Config.thirteen_le_W s
  obtain ⟨-, hfits⟩ := hprimes hp hq
  obtain ⟨-, hcommits⟩ := hfits hfit
  obtain ⟨⟨p, q, n, phi, e, d⟩, hexec, rfl, rfl, hk, hleast⟩ := hcommits haccept
  exact ⟨n, phi, e, d, (exec_eq_execAt _ _).trans hexec, hk, hleast⟩

/-- Under the fixed strategy the private exponent of a consistent key is what the search returns: an inverse of 17 is
unique below `phi`, hence the first, and the sentinel stands where 17 has none (R126). -/
theorem KeyConsistent.first_inverse_or_sent {k : KeyState W} (hk : KeyConsistent .fixedExponent17 k) :
    (1 ≤ k.d.toNat ∧ k.d.toNat < k.phi.toNat ∧ 17 * k.d.toNat % k.phi.toNat = 1 ∧
        ∀ y, 1 ≤ y → y < k.d.toNat → 17 * y % k.phi.toNat ≠ 1) ∨
      (k.d = Word.sent ∧ ∀ y, 1 ≤ y → y < k.phi.toNat → 17 * y % k.phi.toNat ≠ 1) := by
  obtain ⟨he, hsent⟩ := hk.fixed rfl
  by_cases hd : k.d = Word.sent
  · have hnone : k.phi.toNat ≤ 1 ∨ ¬ Nat.Coprime 17 k.phi.toNat := (hsent.1 hd).symm.imp_left Nat.le_of_eq
    exact .inr ⟨hd, modInv_eq_none.1 (modInv_eq_none_iff.2 hnone)⟩
  · obtain ⟨-, hlt, hinv⟩ := hk.d_inverse hd
    rw [he] at hinv
    exact .inl (modInv_eq_some.1 (modInv_of_inverse hlt hinv))

/-- Settles O44: the committed key is consistent, which under the fixed strategy determines its numbers. -/
theorem deriveCommitsTheFixedExponentKey : Obligations.DeriveCommitsTheFixedExponentKey := by
  intro s hp hq hfit hs
  obtain ⟨n, phi, e, d, hexec, hk, -⟩ := exec_derive_commits hp hq hfit (.inl hs)
  rw [hs] at hk
  obtain rfl : e = 17 := BitVec.eq_of_toNat_eq (hk.fixed rfl).1
  simp only [Nat.mod_mul_mod]
  exact ⟨n, phi, d, hexec, hk.n_eq, hk.phi_eq, hk.first_inverse_or_sent⟩

/-- Settles O45: the committed key is consistent, which under the scan strategy includes a private exponent, and no
smaller public exponent passes. -/
theorem deriveCommitsTheScannedExponentKey : Obligations.DeriveCommitsTheScannedExponentKey := by
  intro s hp hq hfit hs hphi
  obtain ⟨n, phi, e, d, hexec, hk, hleast⟩ := exec_derive_commits hp hq hfit (.inr hphi)
  obtain ⟨-, helt, hcop, hfound⟩ := hk.scan hs
  obtain ⟨hd1, hdlt, hinv⟩ := hk.d_inverse hfound
  exact ⟨n, phi, e, d, hexec, hk.n_eq, hk.phi_eq, hk.e_ge, helt, hcop, hleast hs, hd1, hdlt, hinv⟩

end Sys2Proof.Machine

/-! PROOF. Modular exponentiation and the unit transforms at the reference width (spec 44_modexp_transforms.md). -/

namespace Sys2Proof.Machine

variable {W : Nat}

/-! ## The word of the exponentiation unit -/

theorem ne_zero_of_one_le_toNat {v : Word W} (h : 1 ≤ v.toNat) : v ≠ 0 := by
  rintro rfl
  simp at h

/-- The word is the last of the accumulators of R135, which `powerLoop` runs through. -/
theorem exists_accumulators_powerWord (hW : 0 < W) {base exp n : Word W} (hn : 1 ≤ n.toNat) :
    ∃ acc : Nat → Nat, acc 0 = 1 ∧ (∀ k, k < exp.toNat → acc (k + 1) = acc k * base.toNat % n.toNat) ∧
      (powerWord base exp n).toNat = acc exp.toNat :=
  ⟨powerLoop base.toNat n.toNat, rfl, fun _ _ => rfl, toNat_powerWord_eq_powerLoop hW hn⟩

/-- With no step to make the accumulator stays at its start, whatever the modulus (R136 (a)). -/
theorem powerWord_zero_exp {base n : Word W} (hn : 1 ≤ n.toNat) : powerWord base 0 n = 1 := by
  rw [powerWord, if_neg (ne_zero_of_one_le_toNat hn), BitVec.ofNat_eq_ofNat, BitVec.toNat_zero, modExp_zero]
  rfl

/-- From one step on the word is the power's remainder (R136 (b)). -/
theorem toNat_powerWord_of_one_le {base exp n : Word W} (hexp : 1 ≤ exp.toNat) (hn : 1 ≤ n.toNat) :
    (powerWord base exp n).toNat = base.toNat ^ exp.toNat % n.toNat :=
  toNat_powerWord (ne_zero_of_one_le_toNat hexp) (ne_zero_of_one_le_toNat hn)

theorem toNat_powerWord_lt {base exp n : Word W} (hexp : 1 ≤ exp.toNat) (hn : 1 ≤ n.toNat) :
    (powerWord base exp n).toNat < n.toNat := by
  rw [toNat_powerWord_of_one_le hexp hn]
  exact Nat.mod_lt _ hn

/-! ## The corner operands -/

/-- The number below the modulus squares to 1, so that its power depends on the exponent's parity alone (R141). -/
theorem pow_modEq_pow_mod_two {m n : Nat} (h : m + 1 = n) (e : Nat) : m ^ e ≡ m ^ (e % 2) [MOD n] := by
  have hsq : m ^ 2 ≡ 1 [MOD n] := by
    rw [← h, Nat.modEq_iff_dvd]
    exact ⟨1 - m, by push_cast; ring⟩
  calc m ^ e = (m ^ 2) ^ (e / 2) * m ^ (e % 2) := by rw [← pow_mul, ← pow_add, Nat.div_add_mod]
    _ ≡ 1 ^ (e / 2) * m ^ (e % 2) [MOD n] := (hsq.pow _).mul_right _
    _ = m ^ (e % 2) := by rw [one_pow, one_mul]

section CornerOperands

variable {base exp n : Word W} (hexp : 1 ≤ exp.toNat) (hn : 2 ≤ n.toNat)

include hexp hn

theorem powerWord_zero_base : powerWord 0 exp n = 0 := by
  apply BitVec.eq_of_toNat_eq
  rw [toNat_powerWord_of_one_le hexp (by omega), BitVec.ofNat_eq_ofNat, BitVec.toNat_zero, zero_pow (by omega),
    Nat.zero_mod]

theorem powerWord_one_base : powerWord 1 exp n = 1 := by
  have hone : (1 : Word W).toNat = 1 := by
    rw [BitVec.ofNat_eq_ofNat, BitVec.toNat_ofNat, Nat.mod_eq_of_lt (Nat.lt_trans hn n.isLt)]
  apply BitVec.eq_of_toNat_eq
  rw [toNat_powerWord_of_one_le hexp (by omega), hone, one_pow, Nat.mod_eq_of_lt hn]

theorem toNat_powerWord_pred_base (h : base.toNat + 1 = n.toNat) :
    (powerWord base exp n).toNat = base.toNat ^ (exp.toNat % 2) := by
  have hlt : base.toNat ^ (exp.toNat % 2) < n.toNat := by
    rcases Nat.mod_two_eq_zero_or_one exp.toNat with hpar | hpar <;> rw [hpar]
    · rw [pow_zero]
      omega
    · rw [pow_one]
      omega
  rw [toNat_powerWord_of_one_le hexp (by omega), pow_modEq_pow_mod_two h, Nat.mod_eq_of_lt hlt]

end CornerOperands

/-! ## MODEXP -/

/-- Settles O36: the two branches of MODEXP at every width, read at the reference width. -/
theorem modexpRunsTheNaiveLoop : Obligations.ModexpRunsTheNaiveLoop := by
  intro s
  rw [exec_eq_execAt]
  exact ⟨execAt_modexp_zero, execAt_modexp (by decide)⟩

/-- Settles O37: the word left is the unit's, by whether its loop makes a step. -/
theorem modexpIsThePowerRemainder : Obligations.ModexpIsThePowerRemainder := by
  intro s hn
  refine ⟨powerWord s.opa s.opb s.opc, if_neg (Nat.ne_of_gt hn), fun hzero => ?_, fun hexp => ?_⟩
  · have hopb : s.opb = 0 := BitVec.eq_of_toNat_eq hzero
    rw [hopb, powerWord_zero_exp hn]
  · exact ⟨toNat_powerWord_of_one_le hexp hn, toNat_powerWord_lt hexp hn⟩

/-! ## ENCRYPT -/

/-- Settles O38: ENCRYPT has one branch, which leaves the unit's word. -/
theorem encryptRunsTheLoopWithE : Obligations.EncryptRunsTheLoopWithE := fun _ =>
  ⟨_, rfl, exists_accumulators_powerWord (by decide)⟩

/-- Settles O39: the loop makes a step, so the word is the power's remainder, and the corner operands have theirs. -/
theorem encryptIsThePowerRemainder : Obligations.EncryptIsThePowerRemainder := by
  intro s hn he
  have hn1 : 1 ≤ s.key.n.toNat := by omega
  have hn2 : 2 ≤ s.key.n.toNat := by omega
  have he1 : 1 ≤ s.key.e.toNat := by omega
  refine ⟨powerWord s.opa s.key.e s.key.n, rfl, ?_, toNat_powerWord_lt he1 hn1, ?_, ?_, ?_⟩
  · rw [← Nat.pow_mod]
    exact toNat_powerWord_of_one_le he1 hn1
  · intro hzero
    rw [hzero, powerWord_zero_base he1 hn2]
  · intro hone
    rw [hone, powerWord_one_base he1 hn2]
  · intro hpred
    have hpow := toNat_powerWord_pred_base he1 hn2 hpred
    constructor <;> intro hpar <;> rw [hpar] at hpow <;> apply BitVec.eq_of_toNat_eq
    · rw [hpow, pow_one]
    · rw [hpow, pow_zero]
      rfl

/-! ## DECRYPT -/

/-- Settles O40: the sentinel selects the free result, and any other `KEY_D` the unit's word. -/
theorem decryptRunsTheLoopWithDOrIsFree : Obligations.DecryptRunsTheLoopWithDOrIsFree := by
  intro s
  refine ⟨decryptWord s.opa s.key, rfl, fun hd => decryptWord_of_sentinel hd _, fun hd hn => ?_⟩
  rw [decryptWord_of_inverse hd]
  exact exists_accumulators_powerWord (by decide) hn

/-! ## The round trip -/

/-- Settles O41: the round trip at every width, read at the reference width; a word below the modulus is its own
remainder. -/
theorem decryptUndoesEncrypt : Obligations.DecryptUndoesEncrypt := by
  intro s m hinv hd hne
  obtain ⟨hroundTrip, -⟩ := transformsAtEveryWidth Config.W Config.thirteen_le_W s m
  obtain ⟨t, u, henc, hdec, hres⟩ := hroundTrip hinv hd hne
  refine ⟨t, u, ?_, ?_, hres, fun hlt => BitVec.eq_of_toNat_eq ?_⟩
  · rw [exec_eq_execAt, henc]
  · rw [exec_eq_execAt, hdec]
  · rw [hres, Nat.mod_eq_of_lt hlt]

/-- Settles O42: 2 and 8 have the same cube modulo 9, namely 8. -/
theorem equalPrimesBreakTheRoundTrip : Obligations.EqualPrimesBreakTheRoundTrip := by
  intro s hkey hopa
  have henc : powerWord s.opa s.key.e s.key.n = 8 := by
    rw [hkey, hopa]
    decide
  have hdec : decryptWord 8 s.key = 8 := by
    rw [hkey, decryptWord_of_inverse (by decide)]
    decide
  refine ⟨_, _, rfl, henc, rfl, ?_⟩
  show decryptWord (powerWord s.opa s.key.e s.key.n) s.key = 8
  rw [henc, hdec]

end Sys2Proof.Machine

/-! PROOF. How a command can fail, and what a failure touches and does not touch (spec 60_exceptions.md R150, R153,
R156, R159, R165). -/

namespace Sys2Proof.Machine

variable {W : Nat}

/-! ## The codes -/

theorem ok_mem_possibleCodes (i : Instr) : Code.ok ∈ possibleCodes i := by
  cases i <;> decide

/-- A command ends with one of the codes its row of R150 lists. -/
theorem Ending.code_mem_possibleCodes {i : Instr} {s t : State W} (h : Ending i s t) : t.code ∈ possibleCodes i := by
  cases h with
  | failed c _ hc ht => subst ht; exact hc
  | derived _ k _ ht => subst ht; exact ok_mem_possibleCodes i
  | result _ lo hi _ ht => subst ht; exact ok_mem_possibleCodes i

/-- DERIVE rejects `phi` under the scan strategy only; the fixed exponent is taken unchecked (R124, R153). -/
theorem strategy_of_derive_degeneratePhi {s t : State W} (h : execAt .derive s = .next t)
    (hcode : t.code = .degeneratePhi) : s.strategy = .searchSmallestCoprime := by
  rcases deriveKeys_cases W s.strategy s.opa.toNat s.opb.toNat with
    ⟨_, hk⟩ | ⟨_, _, _, hk⟩ | ⟨_, _, _, hscan, _, _⟩ | ⟨_, _, _, e, _, hk⟩
  · cases (execAt_derive_error hk).symm.trans h
    cases hcode
  · cases (execAt_derive_error hk).symm.trans h
    cases hcode
  · exact hscan
  · cases (execAt_derive_ok hk).symm.trans h
    cases hcode

/-- Settles O20: the row of R150, and for the one code that depends on more than the command, the strategy. -/
theorem codesEachCommandCanEndWith : Obligations.CodesEachCommandCanEndWith := by
  intro i s t h
  rw [exec_eq_execAt] at h
  have hmem := (ending_of_execAt h).code_mem_possibleCodes
  cases i with
  | derive =>
    have hstrategy := strategy_of_derive_degeneratePhi h
    simp only [possibleCodes, List.mem_cons, List.not_mem_nil, or_false] at hmem
    rcases hmem with hc | hc | hc | hc
    · exact .inl hc
    · exact .inr (.inl ⟨hc, rfl⟩)
    · exact .inr (.inr (.inl ⟨hc, .inr ⟨rfl, hstrategy hc⟩⟩))
    · exact .inr (.inr (.inr (.inl ⟨hc, rfl⟩)))
  | findexp | modexp | modinv => simpa [possibleCodes] using hmem
  | mul | gcd | coprime | isprime | encrypt | decrypt => exact .inl (List.mem_singleton.1 hmem)

/-! ## What a failure leaves -/

/-- Settles O21: a write to index 0 runs the word, whose failures write the code alone. -/
theorem failureChangesOnlyTheCode : Obligations.FailureChangesOnlyTheCode :=
  fun _ _ _ h hne => runWord_failure h hne

/-- No command reads the code (R23). -/
theorem agreeOnReads_withCode (i : Instr) (c : Code) (s : State W) : AgreeOnReads (s.withCode c) s i := by
  cases i <;> simp [AgreeOnReads]

/-- Every ending writes the code, so the one before it does not show (R13). -/
theorem SameEnding.eq_of_withCode {i : Instr} {c : Code} {s t₁ t₂ : State W}
    (h : SameEnding i (s.withCode c) s t₁ t₂) : t₁ = t₂ := by
  cases h with
  | failed d _ h₁ h₂ => subst h₁ h₂; rfl
  | derived _ k h₁ h₂ => subst h₁ h₂; rfl
  | result _ lo hi h₁ h₂ => subst h₁ h₂; rfl

theorem execAt_withCode (i : Instr) (c : Code) (s : State W) : execAt i (s.withCode c) = execAt i s := by
  obtain ⟨t₁, t₂, h₁, h₂, hend⟩ := endsAlike_of_agreeOnReads (agreeOnReads_withCode i c s)
  rw [h₁, h₂, hend.eq_of_withCode]

/-- A word runs alike whatever code the command before it left (R159). -/
theorem runWord_withCode (v : Word W) (c : Code) (s : State W) : runWord v (s.withCode c) = runWord v s := by
  cases hv : decode v with
  | illegal why => rw [runWord_of_illegal hv, runWord_of_illegal hv, withCode_withCode]
  | command i => rw [runWord_of_command hv, runWord_of_command hv, execAt_withCode]

/-- Settles O22: a write to index 0 runs the word. -/
theorem failureDoesNotLockTheEngine : Obligations.FailureDoesNotLockTheEngine :=
  fun v s c => runWord_withCode v c s

/-! ## The idle block -/

/-- Settles O16: the idle step writes the port's reply alone. -/
theorem idleBlockHoldsItsRegisters : Obligations.IdleBlockHoldsItsRegisters :=
  fun s hp => ⟨_, step_of_idle hp, SameRegisters.refl s, hp⟩

end Sys2Proof.Machine

/-! PROOF. The end of every step and the queue it leaves, the iteration counts of the units, and what a reset leaves
(spec 70_reset_and_hazards.md R176, R177, R190, R191, 20_memory.md R62). -/

namespace Sys2Proof.Machine

variable {W : Nat}

/-! ## The queue -/

/-- No command touches the host's queue. -/
theorem Ending.pending_eq {i : Instr} {s t : State W} (h : Ending i s t) : t.pending = s.pending := by
  cases h with
  | failed c _ _ ht => subst ht; rfl
  | derived _ k _ ht => subst ht; rfl
  | result _ lo hi _ ht => subst ht; rfl

/-- No host action touches the actions behind it, a reset included. -/
theorem Performed.pending_eq {a : HostAction W} {s t : State W} (h : Performed s t a) : t.pending = s.pending := by
  cases h with
  | read idx ht => subst ht; rfl
  | stored idx v ht => rcases ht with rfl | rfl | rfl <;> rfl
  | ignored idx v ht => subst ht; rfl
  | illegal idx v why _ _ ht => subst ht; rfl
  | command idx v i _ _ _ hend => exact hend.pending_eq
  | reset strategy ht => subst ht; rfl

/-- Settles O17: the step is idle on an empty queue, and otherwise performs the action it has taken off. -/
theorem everyStepEndsInOrder : Obligations.EveryStepEndsInOrder := by
  intro s
  cases hp : s.pending with
  | nil => exact ⟨_, step_of_idle hp, hp⟩
  | cons a rest =>
    obtain ⟨t, ht, hperf⟩ := perform_performed a (s.withPending rest)
    exact ⟨t, (step_of_pending hp).trans ht, hperf.pending_eq⟩

/-! ## The iteration counts -/

/-- A scan that finds `x` tests the candidates from the start of its range, `hi - k`, to `x`. -/
theorem scanLastTests_of_some {test : Nat → Bool} {hi k x : Nat} (hk : k ≤ hi) (h : scanLast test hi k = some x) :
    scanLastTests test hi k + (hi - k) = x + 1 := by
  induction k with
  | zero => cases h
  | succ k ih =>
    rw [scanLast] at h
    rw [scanLastTests]
    split at h
    next hpass =>
      cases h
      rw [if_pos hpass]
      omega
    next hskip =>
      rw [if_neg hskip]
      have := ih (by omega) h
      omega

/-- A scan that finds nothing tests its whole range. -/
theorem scanLastTests_of_none {test : Nat → Bool} {hi k : Nat} (h : scanLast test hi k = none) :
    scanLastTests test hi k = k := by
  induction k with
  | zero => rfl
  | succ k ih =>
    rw [scanLast] at h
    rw [scanLastTests]
    split at h
    next => cases h
    next hskip => rw [if_neg hskip, ih h]

/-- The search starts at 1, so that it tests as many candidates as the inverse it finds (R191). -/
theorem modInvTests_of_some {a m x : Nat} (h : modInv a m = some x) : modInvTests a m = x := by
  obtain ⟨hpos, hlt, -⟩ := modInv_eq_some.1 h
  have : modInvTests a m + (m - (m - 1)) = x + 1 := scanLastTests_of_some (Nat.sub_le m 1) h
  omega

theorem modInvTests_of_none {a m : Nat} (h : modInv a m = none) : modInvTests a m = m - 1 :=
  scanLastTests_of_none h

/-- The scan starts at 2, so that it tests one candidate less than the exponent it finds (R191). -/
theorem findExpTests_of_some {phi x : Nat} (h : findExp phi = some x) : findExpTests phi = x - 1 := by
  obtain ⟨htwo, hlt, -⟩ := findExp_eq_some.1 h
  have : findExpTests phi + (phi - (phi - 2)) = x + 1 := scanLastTests_of_some (Nat.sub_le phi 2) h
  omega

/-- The second component bounds the replacements, so any two amounts of fuel from it on count alike. -/
theorem euclidLoopSteps_eq_of_le {f g a b : Nat} (hf : b ≤ f) (hg : b ≤ g) :
    euclidLoopSteps f a b = euclidLoopSteps g a b := by
  induction f generalizing g a b with
  | zero =>
    obtain rfl : b = 0 := by omega
    cases g <;> rfl
  | succ f ih =>
    cases g with
    | zero =>
      obtain rfl : b = 0 := by omega
      rfl
    | succ g =>
      rw [euclidLoopSteps, euclidLoopSteps]
      split
      next => rfl
      next hb =>
        have hlt := Nat.mod_lt a (Nat.pos_of_ne_zero hb)
        rw [ih (g := g) (by omega) (by omega)]

/-- The count satisfies the recursion of R100, one replacement each time. -/
theorem euclidSteps_of_ne_zero (a : Nat) {b : Nat} (hb : b ≠ 0) : euclidSteps a b = euclidSteps b (a % b) + 1 := by
  cases b with
  | zero => exact absurd rfl hb
  | succ k =>
    have hlt := Nat.mod_lt a k.succ_pos
    calc euclidSteps a (k + 1)
        = euclidLoopSteps k (k + 1) (a % (k + 1)) + 1 := by rw [euclidSteps, euclidLoopSteps, if_neg hb]
      _ = euclidSteps (k + 1) (a % (k + 1)) + 1 := by
          rw [euclidSteps, euclidLoopSteps_eq_of_le (Nat.le_of_lt_succ hlt) le_rfl]

theorem powerLoopSteps_eq (k : Nat) : powerLoopSteps k = k := by
  induction k with
  | zero => rfl
  | succ k ih => rw [powerLoopSteps, ih]

/-- Settles O51: one counting lemma per unit and outcome. -/
theorem iterationCountsOfTheUnits : Obligations.IterationCountsOfTheUnits :=
  ⟨fun _ _ _ => modInvTests_of_some, fun _ _ => modInvTests_of_none, fun _ _ => findExpTests_of_some, fun _ => rfl,
    fun a _ => euclidSteps_of_ne_zero a, fun _ exp _ => powerLoopSteps_eq exp⟩

/-! ## Reset -/

/-- Settles O10: both resets lead to the reset state with the same actions waiting, whatever state they start from. -/
theorem resetShowsNoTraceOfACommand : Obligations.ResetShowsNoTraceOfACommand := by
  intro i s t u v strap rest _ hu hv
  have hreset : ∀ r : State, step { r with pending := .reset strap :: rest } =
      .next ((State.resetWith strap).withPending rest) := fun _ => stepAt_of_reset rfl
  rw [hreset] at hu hv
  cases hu
  cases hv
  rfl

/-- Settles O11: the operands are the default primes, from which the sequencer derives the numbers of the reset
key. -/
theorem resetKeyIsTheDerivedKey : Obligations.ResetKeyIsTheDerivedKey := by
  intro s hp hq
  have hk : deriveKeys Config.W s.strategy s.opa.toNat s.opb.toNat = .ok (resetDerived s.strategy) := by
    rw [hp, hq]
    exact deriveKeys_default_primes Config.thirteen_le_W s.strategy
  rw [exec_eq_execAt, execAt_derive_ok hk, resetWith_key, keyState_reset_eq_keyWords, hp, hq]
  rfl

end Sys2Proof.Machine
